-- ==== Sys2Proof/Word.lean ====
section
/-! DEFINITION. The word and byte types (00_scope.md R1, R4, R6). -/

namespace Sys2Proof

/-- A 32-bit machine word, register value, program counter or word index: unsigned, bit 31 most
significant (00_scope.md R1, R4, R6). -/
abbrev Word := BitVec 32

/-- One byte of a stored word stream (20_memory.md R45). No instruction sees a byte (R44). -/
abbrev Byte := BitVec 8

end Sys2Proof
end

