-- ==== Sys2Proof/Config.lean ====
section
/-! DEFINITION. What an implementation fixes: the fixed parameters of 00_scope.md R1 and the types of
the two named parameters WORD_STREAM_BYTE_ORDER (20_memory.md R45) and SHIFT_OVER (42_arith_logic.md
R151). The third parameter, PROG_LEN (00_scope.md R2), differs from run to run and is a field of State.
The spec leaves no value open ("No behaviour in this hardware is treated as `any value`",
93_implementation_defined.md), so this file declares no free value. -/

namespace Sys2Proof

/-- NREG: the number of general registers (00_scope.md R1). -/
def Config.nreg : Nat := 8

/-- NOPC: the number of defined opcodes, values 0 to 18 (00_scope.md R1). -/
def Config.nopc : Nat := 19

/-- The bound on PROG_LEN: at most 2^32 - 1 words (00_scope.md R2, decision D10). -/
def Config.progLenMax : Nat := 2 ^ 32 - 1

/-- The values of the parameter WORD_STREAM_BYTE_ORDER (20_memory.md R45, decision D17): how a word
is laid out as four bytes when the word stream is stored or sent as bytes. -/
inductive ByteOrder where
  | little
  | big
  deriving DecidableEq, Repr

/-- The values of the optional parameter SHIFT_OVER (42_arith_logic.md R151, decision D7): what a
shift by 32 or more does. This spec's value is `fault`. -/
inductive ShiftOver where
  | fault
  | zero
  | mod32
  deriving DecidableEq, Repr

end Sys2Proof
end

