-- ==== Sys2Proof/Syntax.lean ====
section
/-! DEFINITION. The syntax: the decoded fields, the operand forms, the 19 instructions of
spec/opcode_table.json, the encoder's operands and errors, the decoder's rejections and the
assembler's errors. Types only. -/

namespace Sys2Proof

/-- The Decoded Instruction: nine fields, each at its own width (30_encoding.md R70, R73). -/
structure Decoded where
  /-- bits 31:27, the opcode -/
  opc : BitVec 5
  /-- bits 26:0, the syscall number (format B) -/
  num : BitVec 27
  /-- bits 26:22, the first register field (formats C and E) -/
  ra : BitVec 5
  /-- bits 21:0, the branch address (format C) -/
  addr : BitVec 22
  /-- bit 26, the imm-flag of format D -/
  immj : BitVec 1
  /-- bits 25:5, the target of format D -/
  tgt : BitVec 21
  /-- bits 4:0, the destination register field (formats D and E) -/
  rd : BitVec 5
  /-- bit 21, the imm-flag of format E -/
  imm : BitVec 1
  /-- bits 20:5, the second operand of format E -/
  op2 : BitVec 16
  deriving DecidableEq, Repr

/-- The second operand of a format E instruction: a register index held in the whole 16-bit field
(`imm` = 0) or a literal (`imm` = 1) (30_encoding.md R65, R85). -/
inductive Src2 where
  | reg (op2 : BitVec 16)
  | lit (op2 : BitVec 16)
  deriving DecidableEq, Repr

/-- The target of `jmp`: a register index held in the whole 21-bit field (`immj` = 0) or a direct
word index (`immj` = 1) (30_encoding.md R64, R86). -/
inductive Target where
  | reg (tgt : BitVec 21)
  | direct (tgt : BitVec 21)
  deriving DecidableEq, Repr

/-- The 19 instructions, one constructor per row of spec/opcode_table.json, in opcode order
(30_encoding.md R80). Register fields keep their encoded widths: what an index of 8 or more does is
the executor's business (40_cycle.md R115), and `load` and `store` copy their fields uninterpreted
into an event (44_load_store.md R170, R171). -/
inductive Instr where
  | stop
  | add (ra : BitVec 5) (b : Src2) (rd : BitVec 5)
  | sub (ra : BitVec 5) (b : Src2) (rd : BitVec 5)
  | mul (ra : BitVec 5) (b : Src2) (rd : BitVec 5)
  | div (ra : BitVec 5) (b : Src2) (rd : BitVec 5)
  | and (ra : BitVec 5) (b : Src2) (rd : BitVec 5)
  | or (ra : BitVec 5) (b : Src2) (rd : BitVec 5)
  | xor (ra : BitVec 5) (b : Src2) (rd : BitVec 5)
  | shl (ra : BitVec 5) (b : Src2) (rd : BitVec 5)
  | shr (ra : BitVec 5) (b : Src2) (rd : BitVec 5)
  | slt (ra : BitVec 5) (b : Src2) (rd : BitVec 5)
  | sle (ra : BitVec 5) (b : Src2) (rd : BitVec 5)
  | seq (ra : BitVec 5) (b : Src2) (rd : BitVec 5)
  | load (ra : BitVec 5) (b : Src2) (rd : BitVec 5)
  | store (ra : BitVec 5) (b : Src2) (rd : BitVec 5)
  | jmp (t : Target) (rd : BitVec 5)
  | braz (ra : BitVec 5) (addr : BitVec 22)
  | branz (ra : BitVec 5) (addr : BitVec 22)
  | scall (num : BitVec 27)
  deriving DecidableEq, Repr

/-- Why the bytes or the word name no instruction. The decoder of 30_encoding.md R70 itself never
fails (R71): `unknownOpcode` is the dispatch's finding (41_stop.md R131), and `truncated` is an end of
the byte stream inside a word, which the whole-word program port cannot show. -/
inductive DecodeReject where
  /-- An opcode of 19 to 31 (30_encoding.md R89). -/
  | unknownOpcode (opc : BitVec 5)
  /-- Fewer than four bytes are left in the byte stream. -/
  | truncated
  deriving DecidableEq, Repr

/-- The five layouts of a word (30_encoding.md R61 to R65). -/
inductive Layout where
  | formatA
  | formatB
  | formatC
  | formatD
  | formatE
  deriving DecidableEq, Repr

/-- An operand slot of the encoder: `is_reg` and a 32-bit value (30_encoding.md R92). Immediates and
resolved labels are the same thing to the encoder. -/
inductive Operand where
  | register (val : Word)
  | value (val : Word)
  deriving DecidableEq, Repr

/-- The encoder's `err` output when `ok` = 0 (30_encoding.md R92, R94). -/
inductive EncodeError where
  | badOpcode
  | badOperandCount
  | operandKindMismatch
  | invalidRegister
  | fieldOverflow
  deriving DecidableEq, Repr

/-- Why a source text yields no program (60_exceptions.md R209; 30_encoding.md R101 to R103).
`FileNotFound` belongs to the command-line front end, which is out of scope (00_scope.md R16). -/
inductive AsmError where
  /-- A mnemonic that is none of the 19: aborts the assembly (R103). -/
  | unknownMnemonic
  /-- A register sigil followed by no unsigned decimal integer (R102). -/
  | invalidRegister
  /-- A token that is no register, no label and no unsigned decimal integer (R102; 90_conflicts.md C5). -/
  | invalidImmediate
  /-- A label defined twice (R101, decision D24). -/
  | duplicateLabel
  /-- The encoder refused the operands; fatal to the assembly (R99, decision D14). -/
  | encoder (e : EncodeError)
  deriving DecidableEq, Repr

end Sys2Proof
end

