-- ==== Sys2Proof/WellFormed.lean ====
section
/-! DEFINITION. Well-formedness: every register field of the instruction is an index 0 to 7, as in every
word the encoder produces (30_encoding.md R94 check 4, R98). An ill-formed instruction still decodes and
still executes (40_cycle.md R115); `load` and `store` do not even check their fields (R170). -/

namespace Sys2Proof

/-- The check an instruction fails. -/
inductive IllFormed where
  /-- The first register field holds 8 or more. -/
  | raOutOfRange
  /-- The second operand is a register and its field holds 8 or more. -/
  | op2OutOfRange
  /-- The jump target is a register and its field holds 8 or more. -/
  | tgtOutOfRange
  /-- The destination field holds 8 or more. -/
  | rdOutOfRange
  deriving DecidableEq, Repr

/-- A register field names an existing register. -/
def regFieldOk {w : Nat} (f : BitVec w) : Bool := decide (f.toNat < Config.nreg)

/-- A second operand is a literal or names an existing register. -/
def Src2.ok : Src2 → Bool
  | .reg f => regFieldOk f
  | .lit _ => true

/-- A jump target is a direct address or names an existing register. -/
def Target.ok : Target → Bool
  | .reg f => regFieldOk f
  | .direct _ => true

/-- The first failing check of a format E instruction. -/
def checkE (ra : BitVec 5) (b : Src2) (rd : BitVec 5) : Option IllFormed :=
  if regFieldOk ra = false then some .raOutOfRange
  else if b.ok = false then some .op2OutOfRange
  else if regFieldOk rd = false then some .rdOutOfRange
  else none

/-- The first failing check of a branch. -/
def checkC (ra : BitVec 5) : Option IllFormed :=
  if regFieldOk ra = false then some .raOutOfRange else none

/-- The first failing check of a jump. -/
def checkD (t : Target) (rd : BitVec 5) : Option IllFormed :=
  if t.ok = false then some .tgtOutOfRange
  else if regFieldOk rd = false then some .rdOutOfRange
  else none

/-- The first failing check of an instruction, none where it is well formed. -/
def Instr.check : Instr → Option IllFormed
  | .stop => none
  | .add ra b rd => checkE ra b rd
  | .sub ra b rd => checkE ra b rd
  | .mul ra b rd => checkE ra b rd
  | .div ra b rd => checkE ra b rd
  | .and ra b rd => checkE ra b rd
  | .or ra b rd => checkE ra b rd
  | .xor ra b rd => checkE ra b rd
  | .shl ra b rd => checkE ra b rd
  | .shr ra b rd => checkE ra b rd
  | .slt ra b rd => checkE ra b rd
  | .sle ra b rd => checkE ra b rd
  | .seq ra b rd => checkE ra b rd
  | .load ra b rd => checkE ra b rd
  | .store ra b rd => checkE ra b rd
  | .jmp t rd => checkD t rd
  | .braz ra _ => checkC ra
  | .branz ra _ => checkC ra
  | .scall _ => none

/-- An instruction the encoder can produce: no check fails. -/
def Instr.wellFormed (i : Instr) : Bool := i.check.isNone

end Sys2Proof
end

