-- ==== Sys2Proof/Decode.lean ====
section
/-! DEFINITION. The decoder (30_encoding.md R70 to R73), the opcode map (R80, R81), the encoder of an
instruction, the hardware's encoder block with its refusals (R92 to R96), and the byte forms of a word
(20_memory.md R45). -/

namespace Sys2Proof

/-! ## Fields and words -/

/-- `Decode(w)`: all nine fields of a word, whatever its opcode (30_encoding.md R70). -/
def decodeFields (w : Word) : Decoded where
  opc := w.extractLsb' 27 5
  num := w.extractLsb' 0 27
  ra := w.extractLsb' 22 5
  addr := w.extractLsb' 0 22
  immj := w.extractLsb' 26 1
  tgt := w.extractLsb' 5 21
  rd := w.extractLsb' 0 5
  imm := w.extractLsb' 21 1
  op2 := w.extractLsb' 5 16

/-- The second operand's form, selected by `imm` (30_encoding.md R85). -/
def Decoded.src2 (d : Decoded) : Src2 := if d.imm = 1#1 then .lit d.op2 else .reg d.op2

/-- The jump target's form, selected by `immj` (30_encoding.md R86). -/
def Decoded.target (d : Decoded) : Target := if d.immj = 1#1 then .direct d.tgt else .reg d.tgt

/-- The opcode map: the instruction is selected by `opc` and by nothing else (30_encoding.md R80, R81);
opcodes 19 to 31 are none (R89). -/
def Decoded.instr (d : Decoded) : Except DecodeReject Instr :=
  match d.opc.toNat with
  | 0 => .ok .stop
  | 1 => .ok (.add d.ra d.src2 d.rd)
  | 2 => .ok (.sub d.ra d.src2 d.rd)
  | 3 => .ok (.mul d.ra d.src2 d.rd)
  | 4 => .ok (.div d.ra d.src2 d.rd)
  | 5 => .ok (.and d.ra d.src2 d.rd)
  | 6 => .ok (.or d.ra d.src2 d.rd)
  | 7 => .ok (.xor d.ra d.src2 d.rd)
  | 8 => .ok (.shl d.ra d.src2 d.rd)
  | 9 => .ok (.shr d.ra d.src2 d.rd)
  | 10 => .ok (.slt d.ra d.src2 d.rd)
  | 11 => .ok (.sle d.ra d.src2 d.rd)
  | 12 => .ok (.seq d.ra d.src2 d.rd)
  | 13 => .ok (.load d.ra d.src2 d.rd)
  | 14 => .ok (.store d.ra d.src2 d.rd)
  | 15 => .ok (.jmp d.target d.rd)
  | 16 => .ok (.braz d.ra d.addr)
  | 17 => .ok (.branz d.ra d.addr)
  | 18 => .ok (.scall d.num)
  | _ => .error (.unknownOpcode d.opc)

/-- The instruction a word stands for, or its rejection by name. -/
def decodeWord (w : Word) : Except DecodeReject Instr := (decodeFields w).instr

/-! ## Bytes of a word -/

/-- The word of four bytes, `b0` the first of the stream (20_memory.md R45). -/
def wordOfBytes (o : ByteOrder) (b0 b1 b2 b3 : Byte) : Word :=
  match o with
  | .little => b3 ++ b2 ++ b1 ++ b0
  | .big => b0 ++ b1 ++ b2 ++ b3

/-- The four bytes of a word, first of the stream first (20_memory.md R45). -/
def bytesOfWord (o : ByteOrder) (w : Word) : List Byte :=
  match o with
  | .little => [w.extractLsb' 0 8, w.extractLsb' 8 8, w.extractLsb' 16 8, w.extractLsb' 24 8]
  | .big => [w.extractLsb' 24 8, w.extractLsb' 16 8, w.extractLsb' 8 8, w.extractLsb' 0 8]

/-- The byte order in which the MODEL lays a program word out as cells. DESIGN CHOICE (log 2): the
hardware has no byte order (20_memory.md R44) and no operation of the model reads less than a word. -/
def storeOrder : ByteOrder := .little

/-- A word stream as bytes, in a given order (20_memory.md R45). -/
def streamBytes (o : ByteOrder) : List Word → List Byte
  | [] => []
  | w :: ws => bytesOfWord o w ++ streamBytes o ws

/-- A stream of bytes as words: none where it ends inside a word (20_memory.md R45, log 27). -/
def streamWords (o : ByteOrder) : List Byte → Option (List Word)
  | [] => some []
  | b0 :: b1 :: b2 :: b3 :: rest => (streamWords o rest).map (wordOfBytes o b0 b1 b2 b3 :: ·)
  | _ => none

/-- The instruction at the head of a byte stream and the bytes after it. Total on any bytes. -/
def decodeBytes (o : ByteOrder) : List Byte → Except DecodeReject (Instr × List Byte)
  | b0 :: b1 :: b2 :: b3 :: rest =>
    match decodeWord (wordOfBytes o b0 b1 b2 b3) with
    | .ok i => .ok (i, rest)
    | .error e => .error e
  | _ => .error .truncated

/-- The word of `nbits` bits that the host writes as the number `w`: bits from `nbits` up are 0. -/
def tableWord (nbits w : Nat) : Word := BitVec.ofNat 32 (w % 2 ^ nbits)

/-- The instruction the decoder reads from a row's word, through the bytes of the model's store. -/
def decodeTableWord (nbits w : Nat) : Option Instr :=
  match decodeBytes storeOrder (bytesOfWord storeOrder (tableWord nbits w)) with
  | .ok (i, _) => some i
  | .error _ => none

/-! ## The encoding of an instruction -/

/-- The imm-flag of a second operand: 1 for a literal (30_encoding.md R65). -/
def Src2.imm : Src2 → BitVec 1
  | .reg _ => 0#1
  | .lit _ => 1#1

/-- The 16-bit field of a second operand. -/
def Src2.op2 : Src2 → BitVec 16
  | .reg f => f
  | .lit f => f

/-- The imm-flag of a jump target: 1 for a direct address (30_encoding.md R64). -/
def Target.immj : Target → BitVec 1
  | .reg _ => 0#1
  | .direct _ => 1#1

/-- The 21-bit field of a jump target. -/
def Target.tgt : Target → BitVec 21
  | .reg f => f
  | .direct f => f

/-- A format E word: fields from high to low (30_encoding.md R65). -/
def wordE (opc : BitVec 5) (ra : BitVec 5) (b : Src2) (rd : BitVec 5) : Word :=
  opc ++ ra ++ b.imm ++ b.op2 ++ rd

/-- A format D word (30_encoding.md R64). -/
def wordD (opc : BitVec 5) (t : Target) (rd : BitVec 5) : Word := opc ++ t.immj ++ t.tgt ++ rd

/-- A format C word (30_encoding.md R63). -/
def wordC (opc : BitVec 5) (ra : BitVec 5) (addr : BitVec 22) : Word := opc ++ ra ++ addr

/-- A format B word (30_encoding.md R62). -/
def wordB (opc : BitVec 5) (num : BitVec 27) : Word := opc ++ num

/-- The opcode of an instruction (30_encoding.md R80). -/
def Instr.opcode : Instr → BitVec 5
  | .stop => 0#5
  | .add _ _ _ => 1#5
  | .sub _ _ _ => 2#5
  | .mul _ _ _ => 3#5
  | .div _ _ _ => 4#5
  | .and _ _ _ => 5#5
  | .or _ _ _ => 6#5
  | .xor _ _ _ => 7#5
  | .shl _ _ _ => 8#5
  | .shr _ _ _ => 9#5
  | .slt _ _ _ => 10#5
  | .sle _ _ _ => 11#5
  | .seq _ _ _ => 12#5
  | .load _ _ _ => 13#5
  | .store _ _ _ => 14#5
  | .jmp _ _ => 15#5
  | .braz _ _ => 16#5
  | .branz _ _ => 17#5
  | .scall _ => 18#5

/-- The word of an instruction, written from the formats of 30_encoding.md R61 to R65. The bits of
`stop` that no operand fills are 0 (R96). -/
def encode (i : Instr) : Word :=
  match i with
  | .stop => wordB i.opcode 0#27
  | .add ra b rd => wordE i.opcode ra b rd
  | .sub ra b rd => wordE i.opcode ra b rd
  | .mul ra b rd => wordE i.opcode ra b rd
  | .div ra b rd => wordE i.opcode ra b rd
  | .and ra b rd => wordE i.opcode ra b rd
  | .or ra b rd => wordE i.opcode ra b rd
  | .xor ra b rd => wordE i.opcode ra b rd
  | .shl ra b rd => wordE i.opcode ra b rd
  | .shr ra b rd => wordE i.opcode ra b rd
  | .slt ra b rd => wordE i.opcode ra b rd
  | .sle ra b rd => wordE i.opcode ra b rd
  | .seq ra b rd => wordE i.opcode ra b rd
  | .load ra b rd => wordE i.opcode ra b rd
  | .store ra b rd => wordE i.opcode ra b rd
  | .jmp t rd => wordD i.opcode t rd
  | .braz ra addr => wordC i.opcode ra addr
  | .branz ra addr => wordC i.opcode ra addr
  | .scall num => wordB i.opcode num

/-! ## The encoder block -/

/-- The layout an opcode selects, none for 19 to 31 (30_encoding.md R66, R93). -/
def layoutOf (op : BitVec 5) : Option Layout :=
  match op.toNat with
  | 0 => some .formatA
  | 15 => some .formatD
  | 16 => some .formatC
  | 17 => some .formatC
  | 18 => some .formatB
  | n => if n < 15 then some .formatE else none

/-- The operand count a layout requires (30_encoding.md R93). -/
def Layout.count : Layout → Nat
  | .formatA => 0
  | .formatB => 1
  | .formatC => 2
  | .formatD => 2
  | .formatE => 3

/-- The slot is a register. -/
def Operand.isReg : Operand → Bool
  | .register _ => true
  | .value _ => false

/-- The slot's 32-bit value. -/
def Operand.val : Operand → Word
  | .register v => v
  | .value v => v

/-- Check 3 of 30_encoding.md R94: the slots have the kinds their layout requires. -/
def kindsOk (l : Layout) (ops : List Operand) : Bool :=
  match l, ops with
  | .formatA, [] => true
  | .formatB, [o1] => !o1.isReg
  | .formatC, [o1, o2] => o1.isReg && !o2.isReg
  | .formatD, [_, o2] => o2.isReg
  | .formatE, [o1, _, o3] => o1.isReg && o3.isReg
  | _, _ => false

/-- Check 4 of 30_encoding.md R94 for one slot: a register operand is below 8. -/
def Operand.regOk (o : Operand) : Bool := !o.isReg || decide (o.val.toNat < Config.nreg)

/-- Check 5 of 30_encoding.md R94 for one slot: a non-register operand fits a field of `width` bits. -/
def Operand.fits (o : Operand) (width : Nat) : Bool := o.isReg || decide (o.val.toNat < 2 ^ width)

/-- Check 5 of 30_encoding.md R94: every non-register operand fits its field. -/
def fieldsFit (l : Layout) (ops : List Operand) : Bool :=
  match l, ops with
  | .formatA, [] => true
  | .formatB, [o1] => o1.fits 27
  | .formatC, [_, o2] => o2.fits 22
  | .formatD, [o1, _] => o1.fits 21
  | .formatE, [_, o2, _] => o2.fits 16
  | _, _ => false

/-- The imm-flag of a slot as a word: 0 for a register, 1 for a value. -/
def Operand.immFlag (o : Operand) : Word := if o.isReg then 0#32 else 1#32

/-- Packing by shift and OR (30_encoding.md R95); a tuple of the wrong length never comes here. -/
def pack (op : BitVec 5) (l : Layout) (ops : List Operand) : Word :=
  let opw : Word := (op.setWidth 32) <<< 27
  match l, ops with
  | .formatB, [o1] => opw ||| o1.val
  | .formatC, [o1, o2] => opw ||| (o1.val <<< 22) ||| o2.val
  | .formatD, [o1, o2] => opw ||| (o1.immFlag <<< 26) ||| (o1.val <<< 5) ||| o2.val
  | .formatE, [o1, o2, o3] =>
    opw ||| (o1.val <<< 22) ||| (o2.immFlag <<< 21) ||| (o2.val <<< 5) ||| o3.val
  | _, _ => opw

/-- The encoder: an opcode and its operands to a word, or the first failing check of 30_encoding.md R94.
The operand count `n` of R92 is the list's length; `ok` = 1 is `.ok`, and `err` is the error. -/
def encoder (op : BitVec 5) (ops : List Operand) : Except EncodeError Word :=
  match layoutOf op with
  | none => .error .badOpcode
  | some l =>
    if ops.length ≠ l.count then .error .badOperandCount
    else if kindsOk l ops = false then .error .operandKindMismatch
    else if ops.all Operand.regOk = false then .error .invalidRegister
    else if fieldsFit l ops = false then .error .fieldOverflow
    else .ok (pack op l ops)

/-- The encoder at its ports: a count `n` of 0 to 3 and three slots, of which the first `n` are
meaningful (30_encoding.md R92). -/
def encoderPorts (op : BitVec 5) (n : BitVec 2) (o1 o2 o3 : Operand) : Except EncodeError Word :=
  encoder op ([o1, o2, o3].take n.toNat)

/-- The encoder slot of a register field. -/
def regOperand {w : Nat} (f : BitVec w) : Operand := .register (f.setWidth 32)

/-- The encoder slot of a value field. -/
def valOperand {w : Nat} (f : BitVec w) : Operand := .value (f.setWidth 32)

/-- The encoder slot of a second operand. -/
def Src2.operand : Src2 → Operand
  | .reg f => regOperand f
  | .lit f => valOperand f

/-- The encoder slot of a jump target. -/
def Target.operand : Target → Operand
  | .reg f => regOperand f
  | .direct f => valOperand f

/-- The operands of an instruction in assembly order (30_encoding.md R95: the field order from high to
low). -/
def Instr.operands : Instr → List Operand
  | .stop => []
  | .add ra b rd => [regOperand ra, b.operand, regOperand rd]
  | .sub ra b rd => [regOperand ra, b.operand, regOperand rd]
  | .mul ra b rd => [regOperand ra, b.operand, regOperand rd]
  | .div ra b rd => [regOperand ra, b.operand, regOperand rd]
  | .and ra b rd => [regOperand ra, b.operand, regOperand rd]
  | .or ra b rd => [regOperand ra, b.operand, regOperand rd]
  | .xor ra b rd => [regOperand ra, b.operand, regOperand rd]
  | .shl ra b rd => [regOperand ra, b.operand, regOperand rd]
  | .shr ra b rd => [regOperand ra, b.operand, regOperand rd]
  | .slt ra b rd => [regOperand ra, b.operand, regOperand rd]
  | .sle ra b rd => [regOperand ra, b.operand, regOperand rd]
  | .seq ra b rd => [regOperand ra, b.operand, regOperand rd]
  | .load ra b rd => [regOperand ra, b.operand, regOperand rd]
  | .store ra b rd => [regOperand ra, b.operand, regOperand rd]
  | .jmp t rd => [t.operand, regOperand rd]
  | .braz ra addr => [regOperand ra, valOperand addr]
  | .branz ra addr => [regOperand ra, valOperand addr]
  | .scall num => [valOperand num]

end Sys2Proof
end

