-- ==== Sys2Proof/Machine/State.lean ====
section
/-! DEFINITION. The machine's state as plain data (10_state.md R20 to R34), its reset value (R32, R33),
and the reasons a step could stop. -/

namespace Sys2Proof.Machine

/-- The executor's state (10_state.md R26). -/
inductive RunState where
  | running
  | halted
  | faulted
  deriving DecidableEq, Repr

/-- Why the machine halted (10_state.md R27). -/
inductive HaltCause where
  | none
  | stop
  | unknownOpcode
  deriving DecidableEq, Repr

/-- Why the machine faulted (60_exceptions.md R200). -/
inductive FaultCause where
  | none
  | programCounterOutOfRange
  | divisionByZero
  | registerIndexOutOfRange
  | shiftAmountOutOfRange
  deriving DecidableEq, Repr

/-- Which reserved instruction emitted a diagnostic (44_load_store.md R170, R171). -/
inductive DiagKind where
  | load
  | store
  deriving DecidableEq, Repr

/-- An event of the output trace (10_state.md R30): the diagnostic of `load` or `store` with its raw
fields (44_load_store.md R170, R171), or a forwarded syscall number (46_scall.md R190). -/
inductive Event where
  | diag (kind : DiagKind) (addr : Word) (ra : BitVec 5) (imm : BitVec 1) (op2 : BitVec 16)
      (rd : BitVec 5)
  | syscall (addr : Word) (num : BitVec 27)
  deriving DecidableEq, Repr

/-- The register file: eight 32-bit registers, none hardwired (10_state.md R20, R21). -/
structure RegFile where
  x0 : Word
  x1 : Word
  x2 : Word
  x3 : Word
  x4 : Word
  x5 : Word
  x6 : Word
  x7 : Word
  deriving DecidableEq, Repr

/-- The program store's cells: (byte address, byte), addresses strictly rising, no cell equal to what
an unlisted address reads as. The word at index `a` is the four cells from `4 * a` (log 2). -/
abbrev Memory := List Host.Cell

/-- The state of the machine. -/
structure State where
  /-- The general registers (10_state.md R20). -/
  x : RegFile
  /-- The program counter, a word index (10_state.md R24). -/
  pc : Word
  /-- Running, halted or faulted (10_state.md R26). -/
  run : RunState
  /-- Why the machine halted (10_state.md R27). -/
  haltCause : HaltCause
  /-- The fault record's cause (10_state.md R28). -/
  faultCause : FaultCause
  /-- The fault record's information (10_state.md R28; 60_exceptions.md R200). -/
  faultInfo : Word
  /-- The index of the faulting instruction, or the out-of-range `pc` (10_state.md R28). -/
  faultAddr : Word
  /-- The output event trace, oldest first (10_state.md R30, log 7). No instruction reads it. -/
  events : List Event
  /-- The program store `Prog` (20_memory.md R40), constant during a run (R41, log 1). -/
  prog : Memory
  /-- PROG_LEN, the number of program words, at most 2^32 - 1 (00_scope.md R2, log 19). -/
  progLen : Word
  deriving DecidableEq, Repr

/-- The machine right after reset (10_state.md R32, R33; 70_reset_and_hazards.md R230), with no program
loaded: the program is the host's and reset gives it no value (10_state.md R34, log 1). -/
def State.reset : State where
  x := ⟨0#32, 0#32, 0#32, 0#32, 0#32, 0#32, 0#32, 0#32⟩
  pc := 0#32
  run := .running
  haltCause := .none
  faultCause := .none
  faultInfo := 0#32
  faultAddr := 0#32
  events := []
  prog := []
  progLen := 0#32

/-- What the executing instruction raises: a cause and its information (60_exceptions.md R205). -/
structure Trap where
  cause : FaultCause
  info : Word
  deriving DecidableEq, Repr

/-- The reasons a step ends in the host's outcome `fault`: none. Every run-time fault of the spec has an
entry the spec describes (60_exceptions.md R205), so it is a next state with `run` = Faulted and its
record filled (log 6); that the type is empty is safe, since no claim can be proved of a stop that the
machine does not make. -/
inductive Fault where
  deriving DecidableEq, Repr

/-- The reasons a step ends in the host's outcome `refused`. -/
inductive Refusal where
  /-- An instruction without a meaning; raised by no arm of exec, since all 19 have one. Safe. -/
  | notModelled (mnemonic : String)
  deriving DecidableEq, Repr

end Sys2Proof.Machine
end

