-- ==== Sys2Proof/Machine/Flags.lean ====
section
/-! DEFINITION. The hardware has no flag, condition code or predicate register (10_state.md R31), so
there is no flag to compute. What stands in their place: the conditions that the compare instructions
turn into the value 0 or 1 of a general register (43_compare.md R160) and the zero test of the branches
(45_control.md R181, R182). All comparisons are unsigned (00_scope.md R6, decision D8, log 11). -/

namespace Sys2Proof.Machine

/-- `a < b`, unsigned (43_compare.md R161). -/
def condLt (a b : Word) : Bool := decide (a.toNat < b.toNat)

/-- `a <= b`, unsigned (43_compare.md R162). -/
def condLe (a b : Word) : Bool := decide (a.toNat ≤ b.toNat)

/-- `a = b`, all 32 bits (43_compare.md R163). -/
def condEq (a b : Word) : Bool := decide (a = b)

/-- The register is zero, all 32 bits tested (45_control.md R181). -/
def condZero (a : Word) : Bool := decide (a = 0#32)

/-- The 32-bit value of a comparison: 1 or 0 (43_compare.md R160). -/
def condWord (c : Bool) : Word := if c then 1#32 else 0#32

end Sys2Proof.Machine
end

