-- ==== Sys2Proof/Machine/Ops.lean ====
section
/-! DEFINITION. The named operations over the state: the register file, the program store, the program
counter, the event trace, `RegIdx` (40_cycle.md R115), `halt` (R119), `raise` (60_exceptions.md R205:
taking a fault, as one shared operation; the spec has no return from one, R208), reset (R230) and the
host's loading of a program (R233). -/

namespace Sys2Proof.Machine

/-! ## Registers -/

/-- `x[i]` of a register file (10_state.md R20). -/
def RegFile.get (r : RegFile) (i : Fin 8) : Word :=
  match i with
  | 0 => r.x0
  | 1 => r.x1
  | 2 => r.x2
  | 3 => r.x3
  | 4 => r.x4
  | 5 => r.x5
  | 6 => r.x6
  | 7 => r.x7

/-- `x[i] <- v` of a register file. -/
def RegFile.set (r : RegFile) (i : Fin 8) (v : Word) : RegFile :=
  match i with
  | 0 => { r with x0 := v }
  | 1 => { r with x1 := v }
  | 2 => { r with x2 := v }
  | 3 => { r with x3 := v }
  | 4 => { r with x4 := v }
  | 5 => { r with x5 := v }
  | 6 => { r with x6 := v }
  | 7 => { r with x7 := v }

/-- The value of general register `i`; no register is hardwired (10_state.md R21). -/
def State.readReg (s : State) (i : Fin 8) : Word := s.x.get i

/-- Write general register `i` (10_state.md R21). -/
def State.writeReg (s : State) (i : Fin 8) (v : Word) : State := { s with x := s.x.set i v }

/-- `RegIdx(f)`: the register a field names, or the fault of a field of 8 or more (40_cycle.md R115). -/
def regIdx {w : Nat} (f : BitVec w) : Except Trap (Fin 8) :=
  if h : f.toNat < 8 then .ok ⟨f.toNat, h⟩
  else .error ⟨.registerIndexOutOfRange, f.setWidth 32⟩

/-! ## Program counter -/

/-- `pc <- v`. -/
def State.setPc (s : State) (v : Word) : State := { s with pc := v }

/-- The increment of the fetch, `pc <- pc + 1` (40_cycle.md R113). -/
def State.advancePc (s : State) : State := { s with pc := s.pc + 1#32 }

/-- `fetch_addr` as the executing instruction sees it: `pc` holds `pc_next` = `fetch_addr` + 1 and the
increment never wraps (40_cycle.md R110, R113; 10_state.md R25), so it is `pc` - 1. DEDUCED (log 4). -/
def State.fetchAddr (s : State) : Word := s.pc - 1#32

/-! ## Events, halts and faults -/

/-- `emit e`: append an event to the output trace (10_state.md R30). -/
def State.emit (s : State) (e : Event) : State := { s with events := s.events ++ [e] }

/-- `halt(c)` (40_cycle.md R119). -/
def State.halt (s : State) (c : HaltCause) : State := { s with run := .halted, haltCause := c }

/-- `raise F(info)`: enter Faulted and fill the fault record; nothing else changes (60_exceptions.md
R205). -/
def State.raise (s : State) (t : Trap) (addr : Word) : State :=
  { s with run := .faulted, faultCause := t.cause, faultInfo := t.info, faultAddr := addr }

/-- The end of an instruction: its result state, or its fault taken at the instruction's index in the
state before any of its effects (60_exceptions.md R205, R206). -/
def State.complete (s : State) (r : Except Trap State) : Host.Outcome State Fault Refusal :=
  match r with
  | .ok t => .next t
  | .error e => .next (s.raise e s.fetchAddr)

/-! ## The program store -/

/-- What an unlisted address of the program store reads as. DESIGN CHOICE (log 3): 0, so that a word
nothing has written is all zeros ("A word of all zeros, such as an unwritten program word",
41_stop.md R130 corner case b). -/
def Memory.unlisted : Byte := 0#8

/-- The byte at a cell address. -/
def Memory.readByte : Memory → Nat → Byte
  | [], _ => Memory.unlisted
  | (b, u) :: m, a => if b = a then u else Memory.readByte m a

/-- Write the byte at a cell address, keeping the canonical form: writing what an unlisted address reads
as removes the cell. -/
def Memory.writeByte : Memory → Nat → Byte → Memory
  | [], a, v => if v = Memory.unlisted then [] else [(a, v)]
  | (b, u) :: m, a, v =>
    if a < b then (if v = Memory.unlisted then (b, u) :: m else (a, v) :: (b, u) :: m)
    else if a = b then (if v = Memory.unlisted then m else (a, v) :: m)
    else (b, u) :: Memory.writeByte m a v

/-- The canonical form: addresses strictly rising, no cell equal to what an unlisted address reads as. -/
def Memory.wf : Memory → Bool
  | [] => true
  | (a, v) :: m => decide (v ≠ Memory.unlisted) && m.all (fun c => decide (a < c.1)) && Memory.wf m

/-- `Prog[a]`: the word at a word index, one indivisible read (20_memory.md R40, R47). -/
def Memory.readWord (m : Memory) (a : Nat) : Word :=
  wordOfBytes storeOrder (m.readByte (4 * a)) (m.readByte (4 * a + 1)) (m.readByte (4 * a + 2))
    (m.readByte (4 * a + 3))

/-- Write bytes at consecutive cell addresses. -/
def Memory.writeBytes (m : Memory) (a : Nat) : List Byte → Memory
  | [] => m
  | v :: vs => Memory.writeBytes (m.writeByte a v) (a + 1) vs

/-- Place a word at a word index: the host's act of loading, never an instruction's (20_memory.md R41). -/
def Memory.writeWord (m : Memory) (a : Nat) (w : Word) : Memory :=
  m.writeBytes (4 * a) (bytesOfWord storeOrder w)

/-- Place words at consecutive word indices ("Word order is execution order", 20_memory.md R40). -/
def Memory.writeWords (m : Memory) (a : Nat) : List Word → Memory
  | [] => m
  | w :: ws => Memory.writeWords (m.writeWord a w) (a + 1) ws

/-- Every cell lies in a word of index below `n`: every other index is empty (20_memory.md R48). -/
def Memory.within (m : Memory) (n : Nat) : Bool := m.all (fun c => decide (c.1 < 4 * n))

/-! ## Reset and loading -/

/-- The `reset` input: every piece of state at its reset value, the program untouched
(70_reset_and_hazards.md R230, R232). -/
def State.applyReset (s : State) : State :=
  { State.reset with prog := s.prog, progLen := s.progLen }

/-- The host presents a program and its length (70_reset_and_hazards.md R233 items 1 and 2); none where
it is longer than PROG_LEN may be (00_scope.md R2, decision D10). -/
def State.loadProgram (s : State) (ws : List Word) : Option State :=
  if ws.length ≤ Config.progLenMax then
    some { s with prog := Memory.writeWords [] 0 ws, progLen := BitVec.ofNat 32 ws.length }
  else none

/-- What is in place before the first cycle: the program, its length, then reset
(70_reset_and_hazards.md R233). -/
def State.boot (s : State) (ws : List Word) : Option State :=
  (s.loadProgram ws).map State.applyReset

end Sys2Proof.Machine
end

