-- ==== Sys2Proof/Machine/Operands.lean ====
section
/-! DEFINITION. Every operand form (`Src2`, the jump target, the branch target), the twelve ALU
operations `f_opc` (40_cycle.md R118) and the common shape of opcodes 1 to 12 (R117). -/

namespace Sys2Proof.Machine

/-! ## Operand forms -/

/-- The content of the register a field names, or the field's fault (40_cycle.md R115). -/
def State.readField {w : Nat} (s : State) (f : BitVec w) : Except Trap Word :=
  match regIdx f with
  | .ok i => .ok (s.readReg i)
  | .error e => .error e

/-- `Src2(d)`: the zero-extended literal, or the content of the register that the whole 16-bit field
names (40_cycle.md R116; 30_encoding.md R84). -/
def State.src2 (s : State) : Src2 → Except Trap Word
  | .lit v => .ok (v.setWidth 32)
  | .reg f => s.readField f

/-! ## The ALU -/

/-- `add`: `(a + b) mod 2^32` (42_arith_logic.md R141). -/
def aluAdd (a b : Word) : Except Trap Word := .ok (a + b)

/-- `sub`: `(a - b) mod 2^32` (42_arith_logic.md R142). PRESUMED (log 13). -/
def aluSub (a b : Word) : Except Trap Word := .ok (a - b)

/-- `mul`: `(a * b) mod 2^32` (42_arith_logic.md R143). PRESUMED (log 13). -/
def aluMul (a b : Word) : Except Trap Word := .ok (a * b)

/-- `div`: the unsigned quotient, or the fault of a zero divisor (42_arith_logic.md R144). -/
def aluDiv (a b : Word) : Except Trap Word :=
  if b = 0#32 then .error ⟨.divisionByZero, 0#32⟩ else .ok (a.udiv b)

/-- `and`, bitwise (42_arith_logic.md R145). PRESUMED (log 13). -/
def aluAnd (a b : Word) : Except Trap Word := .ok (a &&& b)

/-- `or`, bitwise (42_arith_logic.md R146). PRESUMED (log 13). -/
def aluOr (a b : Word) : Except Trap Word := .ok (a ||| b)

/-- `xor`, bitwise (42_arith_logic.md R147). PRESUMED (log 13). -/
def aluXor (a b : Word) : Except Trap Word := .ok (a ^^^ b)

/-- The parameter SHIFT_OVER at this spec's value (42_arith_logic.md R151, decision D7, log 9). -/
def shiftOver : ShiftOver := .fault

/-- A shift under a value of SHIFT_OVER: below 32 the shift `f`; from 32 on the fault with the whole
amount as its information, the value 0, or the shift by the amount modulo 32 (42_arith_logic.md R151). -/
def aluShift (o : ShiftOver) (f : Word → Nat → Word) (a b : Word) : Except Trap Word :=
  if b.toNat < 32 then .ok (f a b.toNat)
  else
    match o with
    | .fault => .error ⟨.shiftAmountOutOfRange, b⟩
    | .zero => .ok 0#32
    | .mod32 => .ok (f a (b.toNat % 32))

/-- `shl`: zeros enter at bit 0 (42_arith_logic.md R148). PRESUMED (log 13). -/
def aluShl (a b : Word) : Except Trap Word := aluShift shiftOver (fun v n => v <<< n) a b

/-- `shr`: logical, zeros enter at bit 31 (42_arith_logic.md R149). That it shifts right
is PRESUMED (log 13), that the shift is logical DEDUCED (log 11). -/
def aluShr (a b : Word) : Except Trap Word := aluShift shiftOver (fun v n => v >>> n) a b

/-- `slt` (43_compare.md R161). That it is less-than is PRESUMED (log 13), unsigned DEDUCED (log 11). -/
def aluSlt (a b : Word) : Except Trap Word := .ok (condWord (condLt a b))

/-- `sle` (43_compare.md R162). That it is at-most is PRESUMED (log 13), unsigned DEDUCED (log 11). -/
def aluSle (a b : Word) : Except Trap Word := .ok (condWord (condLe a b))

/-- `seq` (43_compare.md R163). -/
def aluSeq (a b : Word) : Except Trap Word := .ok (condWord (condEq a b))

/-- The common shape of opcodes 1 to 12 (40_cycle.md R117): the first source, the second source, the
destination index, then the operation, in that order; the first that faults is the fault, and the one
write comes last. -/
def State.alu (s : State) (f : Word → Word → Except Trap Word) (ra : BitVec 5) (b : Src2)
    (rd : BitVec 5) : Except Trap State :=
  match s.readField ra with
  | .error e => .error e
  | .ok va =>
    match s.src2 b with
    | .error e => .error e
    | .ok vb =>
      match regIdx rd with
      | .error e => .error e
      | .ok i =>
        match f va vb with
        | .error e => .error e
        | .ok v => .ok (s.writeReg i v)

/-! ## Control transfer -/

/-- A branch on the register `ra` (45_control.md R181, R182): the index is checked whether or not the
branch is taken; the target is the zero-extended absolute word index (30_encoding.md R87). -/
def State.branch (s : State) (taken : Word → Bool) (ra : BitVec 5) (addr : BitVec 22) :
    Except Trap State :=
  match s.readField ra with
  | .error e => .error e
  | .ok v => .ok (if taken v then s.setPc (addr.setWidth 32) else s)

/-- `jmp` (45_control.md R180): the link register's index is checked first, then the target register's;
the link is written first, and the target register is read after it (decision D9, log 12). -/
def State.jump (s : State) (t : Target) (rd : BitVec 5) : Except Trap State :=
  match regIdx rd with
  | .error e => .error e
  | .ok i =>
    match t with
    | .direct a => .ok ((s.writeReg i s.pc).setPc (a.setWidth 32))
    | .reg f =>
      match regIdx f with
      | .error e => .error e
      | .ok j => .ok ((s.writeReg i s.pc).setPc ((s.writeReg i s.pc).readReg j))

end Sys2Proof.Machine
end

