-- ==== Sys2Proof/Machine/ArithLogic.lean ====
section
/-! DEFINITION. Arithmetic, logic and shift instructions: opcodes 1 to 9 (42_arith_logic.md). -/

namespace Sys2Proof.Machine

/-- `add`: 32-bit addition, wrapping (42_arith_logic.md R141). -/
def execAdd (ra : BitVec 5) (b : Src2) (rd : BitVec 5) (s : State) : Host.Outcome State Fault Refusal :=
  s.complete (s.alu aluAdd ra b rd)

/-- `sub`: 32-bit subtraction, wrapping (42_arith_logic.md R142). -/
def execSub (ra : BitVec 5) (b : Src2) (rd : BitVec 5) (s : State) : Host.Outcome State Fault Refusal :=
  s.complete (s.alu aluSub ra b rd)

/-- `mul`: the low half of the product (42_arith_logic.md R143). -/
def execMul (ra : BitVec 5) (b : Src2) (rd : BitVec 5) (s : State) : Host.Outcome State Fault Refusal :=
  s.complete (s.alu aluMul ra b rd)

/-- `div`: unsigned quotient; a zero divisor faults (42_arith_logic.md R144). -/
def execDiv (ra : BitVec 5) (b : Src2) (rd : BitVec 5) (s : State) : Host.Outcome State Fault Refusal :=
  s.complete (s.alu aluDiv ra b rd)

/-- `and`: bitwise AND (42_arith_logic.md R145). -/
def execAnd (ra : BitVec 5) (b : Src2) (rd : BitVec 5) (s : State) : Host.Outcome State Fault Refusal :=
  s.complete (s.alu aluAnd ra b rd)

/-- `or`: bitwise OR (42_arith_logic.md R146). -/
def execOr (ra : BitVec 5) (b : Src2) (rd : BitVec 5) (s : State) : Host.Outcome State Fault Refusal :=
  s.complete (s.alu aluOr ra b rd)

/-- `xor`: bitwise exclusive OR (42_arith_logic.md R147). -/
def execXor (ra : BitVec 5) (b : Src2) (rd : BitVec 5) (s : State) : Host.Outcome State Fault Refusal :=
  s.complete (s.alu aluXor ra b rd)

/-- `shl`: shift left; an amount of 32 or more faults (42_arith_logic.md R148). -/
def execShl (ra : BitVec 5) (b : Src2) (rd : BitVec 5) (s : State) : Host.Outcome State Fault Refusal :=
  s.complete (s.alu aluShl ra b rd)

/-- `shr`: logical shift right; an amount of 32 or more faults (42_arith_logic.md R149). -/
def execShr (ra : BitVec 5) (b : Src2) (rd : BitVec 5) (s : State) : Host.Outcome State Fault Refusal :=
  s.complete (s.alu aluShr ra b rd)

end Sys2Proof.Machine
end

