-- ==== Sys2Proof/Machine/Compare.lean ====
section
/-! DEFINITION. Compare instructions: opcodes 10 to 12 (43_compare.md). -/

namespace Sys2Proof.Machine

/-- `slt`: set if less than, unsigned (43_compare.md R161). -/
def execSlt (ra : BitVec 5) (b : Src2) (rd : BitVec 5) (s : State) : Host.Outcome State Fault Refusal :=
  s.complete (s.alu aluSlt ra b rd)

/-- `sle`: set if less than or equal, unsigned (43_compare.md R162). -/
def execSle (ra : BitVec 5) (b : Src2) (rd : BitVec 5) (s : State) : Host.Outcome State Fault Refusal :=
  s.complete (s.alu aluSle ra b rd)

/-- `seq`: set if equal (43_compare.md R163). -/
def execSeq (ra : BitVec 5) (b : Src2) (rd : BitVec 5) (s : State) : Host.Outcome State Fault Refusal :=
  s.complete (s.alu aluSeq ra b rd)

end Sys2Proof.Machine
end

