-- ==== Sys2Proof/Machine/Control.lean ====
section
/-! DEFINITION. Control transfer: opcodes 15 to 17 (45_control.md). -/

namespace Sys2Proof.Machine

/-- `jmp`: jump and link (45_control.md R180). -/
def execJmp (t : Target) (rd : BitVec 5) (s : State) : Host.Outcome State Fault Refusal :=
  s.complete (s.jump t rd)

/-- `braz`: branch if the register is zero (45_control.md R181). -/
def execBraz (ra : BitVec 5) (addr : BitVec 22) (s : State) : Host.Outcome State Fault Refusal :=
  s.complete (s.branch condZero ra addr)

/-- `branz`: branch if the register is not zero (45_control.md R182). -/
def execBranz (ra : BitVec 5) (addr : BitVec 22) (s : State) : Host.Outcome State Fault Refusal :=
  s.complete (s.branch (fun v => !condZero v) ra addr)

end Sys2Proof.Machine
end

