-- ==== Sys2Proof/Machine/Halt.lean ====
section
/-! DEFINITION. Halting: `stop` and the dispatch of an unrecognized opcode (41_stop.md). -/

namespace Sys2Proof.Machine

/-- `stop` (41_stop.md R130). -/
def execStop (s : State) : Host.Outcome State Fault Refusal := .next (s.halt .stop)

/-- An opcode of 19 to 31, which is no instruction: halt, not fault (41_stop.md R131). -/
def execUnknownOpcode (s : State) : Host.Outcome State Fault Refusal :=
  .next (s.halt .unknownOpcode)

end Sys2Proof.Machine
end

