-- ==== Sys2Proof/Machine/LoadStore.lean ====
section
/-! DEFINITION. The reserved `load` and `store`: opcodes 13 and 14, no-operations that emit a diagnostic
(44_load_store.md). -/

namespace Sys2Proof.Machine

/-- `load`: emit a diagnostic that carries the raw fields; no register is read, written or checked
(44_load_store.md R170, decision D18, log 18). -/
def execLoad (ra : BitVec 5) (b : Src2) (rd : BitVec 5) (s : State) : Host.Outcome State Fault Refusal :=
  .next (s.emit (.diag .load s.fetchAddr ra b.imm b.op2 rd))

/-- `store`: emit a diagnostic that carries the raw fields; no register is read, written or checked
(44_load_store.md R171, decision D18, log 18). -/
def execStore (ra : BitVec 5) (b : Src2) (rd : BitVec 5) (s : State) : Host.Outcome State Fault Refusal :=
  .next (s.emit (.diag .store s.fetchAddr ra b.imm b.op2 rd))

end Sys2Proof.Machine
end

