-- ==== Sys2Proof/Machine/Scall.lean ====
section
/-! DEFINITION. `scall`: opcode 18 (46_scall.md). -/

namespace Sys2Proof.Machine

/-- `scall`: forward the 27-bit number as an event; nothing else changes (46_scall.md R190). -/
def execScall (num : BitVec 27) (s : State) : Host.Outcome State Fault Refusal :=
  .next (s.emit (.syscall s.fetchAddr num))

end Sys2Proof.Machine
end

