-- ==== Sys2Proof/Machine/Dispatch.lean ====
section
/-! DEFINITION. The dispatch of a decoded instruction to its meaning (40_cycle.md R114). -/

namespace Sys2Proof.Machine

def exec (i : Instr) (s : State) : Host.Outcome State Fault Refusal :=
  match i with
  | .stop => Sys2Proof.Machine.execStop s
  | .add ra b rd => Sys2Proof.Machine.execAdd ra b rd s
  | .sub ra b rd => Sys2Proof.Machine.execSub ra b rd s
  | .mul ra b rd => Sys2Proof.Machine.execMul ra b rd s
  | .div ra b rd => Sys2Proof.Machine.execDiv ra b rd s
  | .and ra b rd => Sys2Proof.Machine.execAnd ra b rd s
  | .or ra b rd => Sys2Proof.Machine.execOr ra b rd s
  | .xor ra b rd => Sys2Proof.Machine.execXor ra b rd s
  | .shl ra b rd => Sys2Proof.Machine.execShl ra b rd s
  | .shr ra b rd => Sys2Proof.Machine.execShr ra b rd s
  | .slt ra b rd => Sys2Proof.Machine.execSlt ra b rd s
  | .sle ra b rd => Sys2Proof.Machine.execSle ra b rd s
  | .seq ra b rd => Sys2Proof.Machine.execSeq ra b rd s
  | .load ra b rd => Sys2Proof.Machine.execLoad ra b rd s
  | .store ra b rd => Sys2Proof.Machine.execStore ra b rd s
  | .jmp t rd => Sys2Proof.Machine.execJmp t rd s
  | .braz ra addr => Sys2Proof.Machine.execBraz ra addr s
  | .branz ra addr => Sys2Proof.Machine.execBranz ra addr s
  | .scall num => Sys2Proof.Machine.execScall num s

end Sys2Proof.Machine
end

