-- ==== Sys2Proof/Machine/Cycle.lean ====
section
/-! DEFINITION. The parts of one cycle: the bounds check, the fetch and the dispatch of the fetched word
(40_cycle.md R110 to R114). -/

namespace Sys2Proof.Machine

/-- The word at `pc` (40_cycle.md R113). -/
def State.fetch (s : State) : Word := s.prog.readWord s.pc.toNat

/-- The bounds check (40_cycle.md R112). -/
def State.pcOutOfRange (s : State) : Bool := decide (s.progLen.toNat ≤ s.pc.toNat)

/-- The fault of the bounds check: information and address are both `pc`, which stays
(40_cycle.md R112; 60_exceptions.md R201). -/
def State.raisePc (s : State) : State := s.raise ⟨.programCounterOutOfRange, s.pc⟩ s.pc

/-- Decode and dispatch of a fetched word, `pc` already incremented (40_cycle.md R110 steps 4 and 5). -/
def executeWord (w : Word) (s : State) : Host.Outcome State Fault Refusal :=
  match decodeWord w with
  | .ok i => exec i s
  | .error _ => execUnknownOpcode s

/-- One cycle of a running executor (40_cycle.md R110). -/
def State.cycle (s : State) : Host.Outcome State Fault Refusal :=
  if s.pcOutOfRange then .next s.raisePc else executeWord s.fetch s.advancePc

/-- The word index where a word must stand to be fetched next: `pc`, but 0 where `pc` is 2^32 - 1, at
which no program has a word (00_scope.md R2, log 26). -/
def State.fetchSlot (s : State) : Word := if s.pc = 0xFFFFFFFF#32 then 0#32 else s.pc

/-- The state with a word placed where the next cycle fetches, in a program long enough to hold it, the
machine running (log 26). -/
def State.withWordAtPc (s : State) (w : Word) : State :=
  { s with
    run := .running
    pc := s.fetchSlot
    prog := s.prog.writeWord s.fetchSlot.toNat w
    progLen := if s.fetchSlot < s.progLen then s.progLen else s.fetchSlot + 1#32 }

end Sys2Proof.Machine
end

