-- ==== Sys2Proof/Machine/Step.lean ====
section
/-! DEFINITION. The step function (40_cycle.md R110, R111) and the host's placing of one instruction
where the next step fetches. -/

namespace Sys2Proof.Machine

/-- One step: a cycle where the machine runs; where it is halted or faulted nothing changes
(40_cycle.md R110, R111; log 5). -/
def step (s : State) : Host.Outcome State Fault Refusal :=
  match s.run with
  | .running => s.cycle
  | .halted => .next s
  | .faulted => .next s

/-- The state with the instruction of the bits `w` stored where `step` fetches next (log 26). -/
def State.withFetchWord (s : State) (nbits w : Nat) : State := s.withWordAtPc (tableWord nbits w)

end Sys2Proof.Machine
end

