-- ==== Sys2Proof/Machine/Assembler.lean ====
section
/-! DEFINITION. The assembly front end that feeds the encoder (30_encoding.md R100 to R105). It is
supporting material and no part of the block (00_scope.md R15): no step uses it. A source text is a list
of characters; every result is total and computed by structural recursion (log 23). -/

namespace Sys2Proof.Assembler

/-- A piece of source text. -/
abbrev Text := List Char

/-- White space inside a line (log 23). -/
def isSpace (c : Char) : Bool := c = ' ' || c = '\t' || c = '\r'

/-- Cut a text at every character that satisfies `p`; the pieces between the cuts, empty ones included. -/
def cut (p : Char → Bool) : Text → List Text
  | [] => [[]]
  | c :: cs =>
    if p c then [] :: cut p cs
    else
      match cut p cs with
      | [] => [[c]]
      | w :: ws => (c :: w) :: ws

/-- Remove white space at both ends of a line. -/
def trim (l : Text) : Text := ((l.dropWhile isSpace).reverse.dropWhile isSpace).reverse

/-- A line without its comment and without surrounding white space (30_encoding.md R100). -/
def stripLine (l : Text) : Text := trim (l.takeWhile (fun c => c ≠ ';'))

/-- The lines of a source, comments and blank lines dropped (30_encoding.md R100). -/
def sourceLines (src : Text) : List Text :=
  ((cut (fun c => c = '\n') src).map stripLine).filter (fun l => l ≠ [])

/-- A line that ends in a colon defines a label; its name is everything before the colon
(30_encoding.md R100). -/
def labelOf (l : Text) : Option Text := if l.getLast? = some ':' then some l.dropLast else none

/-- A label table: names and word indices. -/
abbrev Labels := List (Text × Nat)

/-- The index a label is bound to. -/
def lookupLabel : Labels → Text → Option Nat
  | [], _ => none
  | (m, a) :: ls, n => if m = n then some a else lookupLabel ls n

/-- The first pass (30_encoding.md R101): a label line binds its name to the counter, an instruction line
advances it; a second definition of a name is an error. -/
def collectLabels (ls : Labels) (n : Nat) : List Text → Except AsmError Labels
  | [] => .ok ls
  | l :: rest =>
    match labelOf l with
    | none => collectLabels ls (n + 1) rest
    | some name =>
      match lookupLabel ls name with
      | some _ => .error .duplicateLabel
      | none => collectLabels (ls ++ [(name, n)]) n rest

/-- The mnemonics in opcode order (00_scope.md R10; 30_encoding.md R80). -/
def mnemonics : List Text :=
  ["stop".toList, "add".toList, "sub".toList, "mul".toList, "div".toList, "and".toList, "or".toList,
    "xor".toList, "shl".toList, "shr".toList, "slt".toList, "sle".toList, "seq".toList, "load".toList,
    "store".toList, "jmp".toList, "braz".toList, "branz".toList, "scall".toList]

/-- The opcode of a mnemonic: its place in the list. -/
def opcodeOf (m : Text) : Option (BitVec 5) :=
  if m ∈ mnemonics then some (BitVec.ofNat 5 (mnemonics.idxOf m)) else none

/-- The value of one decimal digit. -/
def digit (c : Char) : Option Nat :=
  if '0'.toNat ≤ c.toNat ∧ c.toNat ≤ '9'.toNat then some (c.toNat - '0'.toNat) else none

/-- Read decimal digits onto an accumulator. -/
def readDigits (acc : Nat) : Text → Option Nat
  | [] => some acc
  | c :: cs =>
    match digit c with
    | some d => readDigits (10 * acc + d) cs
    | none => none

/-- An unsigned decimal integer of 32 bits (30_encoding.md R102; 00_scope.md R6; log 24). -/
def readDecimal (t : Text) : Option Word :=
  match t with
  | [] => none
  | _ =>
    match readDigits 0 t with
    | some n => if n < 2 ^ 32 then some (BitVec.ofNat 32 n) else none
    | none => none

/-- An operand token (30_encoding.md R102): a register by its sigil, else a label, else a decimal. The
encoder's slot is 32 bits wide (R92); what a label bound to 2^32 or more gives is not stated, and the
model takes its address modulo 2^32. DESIGN CHOICE, unsafe (log 30). -/
def operandOf (ls : Labels) (tok : Text) : Except AsmError Operand :=
  match tok with
  | 'r' :: ds =>
    match readDecimal ds with
    | some v => .ok (.register v)
    | none => .error .invalidRegister
  | _ =>
    match lookupLabel ls tok with
    | some a => .ok (.value (BitVec.ofNat 32 a))
    | none =>
      match readDecimal tok with
      | some v => .ok (.value v)
      | none => .error .invalidImmediate

/-- The operands of a line, left to right. -/
def operandsOf (ls : Labels) : List Text → Except AsmError (List Operand)
  | [] => .ok []
  | tok :: rest =>
    match operandOf ls tok with
    | .error e => .error e
    | .ok o =>
      match operandsOf ls rest with
      | .error e => .error e
      | .ok os => .ok (o :: os)

/-- The mnemonic and the operand tokens of an instruction line: the first token, and the rest joined
without white space and cut at commas (30_encoding.md R102). -/
def tokens (l : Text) : Text × List Text :=
  match (cut isSpace l).filter (fun t => t ≠ []) with
  | [] => ([], [])
  | m :: rest =>
    match rest.flatten with
    | [] => (m, [])
    | args => (m, cut (fun c => c = ',') args)

/-- The word of an instruction line (30_encoding.md R102, R103). -/
def wordOf (ls : Labels) (l : Text) : Except AsmError Word :=
  match opcodeOf (tokens l).1 with
  | none => .error .unknownMnemonic
  | some op =>
    match operandsOf ls (tokens l).2 with
    | .error e => .error e
    | .ok os =>
      match encoder op os with
      | .error e => .error (.encoder e)
      | .ok w => .ok w

/-- The second pass: every instruction line yields exactly one word (30_encoding.md R104), and the first
line that fails ends the assembly (R99, R103). -/
def emitWords (ls : Labels) : List Text → Except AsmError (List Word)
  | [] => .ok []
  | l :: rest =>
    match labelOf l with
    | some _ => emitWords ls rest
    | none =>
      match wordOf ls l with
      | .error e => .error e
      | .ok w =>
        match emitWords ls rest with
        | .error e => .error e
        | .ok ws => .ok (w :: ws)

/-- The Assembled Program of a source text, or why there is none (30_encoding.md R100 to R104). -/
def assemble (src : Text) : Except AsmError (List Word) :=
  match collectLabels [] 0 (sourceLines src) with
  | .error e => .error e
  | .ok ls => emitWords ls (sourceLines src)

/-- The non-fatal advisory of a program that contains no `stop` (30_encoding.md R105). -/
def noStopAdvisory (ws : List Word) : Bool := ws.all (fun w => (decodeFields w).opc ≠ 0#5)

end Sys2Proof.Assembler
end

