-- ==== Sys2Proof/Machine/Ports.lean ====
section
/-! DEFINITION. The executor's ports (40_cycle.md R123) as functions of the state, with the numeric codes
of 60_exceptions.md R200 and R207, and one activation of the block with its `reset` input. -/

namespace Sys2Proof.Machine

/-- The `run_state` code (60_exceptions.md R207). -/
def RunState.code : RunState → BitVec 2
  | .running => 0#2
  | .halted => 1#2
  | .faulted => 2#2

/-- The `halt_cause` code (60_exceptions.md R207). -/
def HaltCause.code : HaltCause → BitVec 2
  | .none => 0#2
  | .stop => 1#2
  | .unknownOpcode => 2#2

/-- The `fault_cause` code (60_exceptions.md R200). -/
def FaultCause.code : FaultCause → BitVec 3
  | .none => 0#3
  | .programCounterOutOfRange => 1#3
  | .divisionByZero => 2#3
  | .registerIndexOutOfRange => 3#3
  | .shiftAmountOutOfRange => 4#3

/-- The executor's outputs (40_cycle.md R123), the `event` port apart. -/
structure Outputs where
  progAddr : Word
  runState : BitVec 2
  haltCause : BitVec 2
  faultCause : BitVec 3
  faultInfo : Word
  faultAddr : Word
  x : RegFile
  pc : Word
  deriving DecidableEq, Repr

/-- What the host observes of a state (40_cycle.md R123, R124). -/
def State.outputs (s : State) : Outputs where
  progAddr := s.pc
  runState := s.run.code
  haltCause := s.haltCause.code
  faultCause := s.faultCause.code
  faultInfo := s.faultInfo
  faultAddr := s.faultAddr
  x := s.x
  pc := s.pc

/-- The `event` port of the cycle from `s` to `t`: the events that the cycle appended to the trace, at
most one (40_cycle.md R123). -/
def eventPort (s t : State) : List Event := t.events.drop s.events.length

/-- The `prog_data` input: the word at the presented index, valid while the index is below PROG_LEN
(40_cycle.md R123). -/
def State.progData (s : State) : Option Word := if s.pcOutOfRange then none else some s.fetch

/-- One activation of the block: reset where its `reset` input is 1 (70_reset_and_hazards.md R230), else
one step. -/
def activate (reset : Bool) (s : State) : Host.Outcome State Fault Refusal :=
  if reset then .next s.applyReset else step s

end Sys2Proof.Machine
end

