-- ==== Sys2Proof/Safety.lean ====
section
/-! DEFINITION. The terms claims use: runs of the machine and how they end, what an instruction leaves
unchanged, the effects of writing a register and of taking a fault, and the machine's invariant. -/

namespace Sys2Proof.Machine

/-! ## Runs and their ends -/

/-- `k` steps from a state; a stopped machine stays as it is (40_cycle.md R111). It is the host's
`Core.run` of this machine (Laws/Run.lean, `runSteps_eq_core_run`). -/
def runSteps : Nat → State → Host.Outcome State Fault Refusal
  | 0, s => .next s
  | k + 1, s =>
    match step s with
    | .next t => runSteps k t
    | .fault r => .fault r
    | .refused r => .refused r

/-- A normal end: halted by `stop` (41_stop.md R131 corner case a, R132). -/
def State.EndedNormally (s : State) : Prop := s.run = .halted ∧ s.haltCause = .stop

/-- A safe run: no number of steps leads to Faulted (60_exceptions.md R206: "never a successful end"). -/
def State.NeverFaults (s : State) : Prop := ∀ k t, runSteps k s = .next t → t.run ≠ .faulted

/-- The run reaches a normal end (70_reset_and_hazards.md R234). -/
def State.EndsNormally (s : State) : Prop := ∃ k t, runSteps k s = .next t ∧ t.EndedNormally

/-! ## Frames -/

/-- Every general register is unchanged. -/
def SameRegs (s t : State) : Prop := ∀ j : Fin 8, t.readReg j = s.readReg j

/-- The run state and both cause records are unchanged. -/
def SameStatus (s t : State) : Prop :=
  t.run = s.run ∧ t.haltCause = s.haltCause ∧ t.faultCause = s.faultCause ∧
    t.faultInfo = s.faultInfo ∧ t.faultAddr = s.faultAddr

/-- The program is unchanged: every byte of the store, the store itself and PROG_LEN. -/
def SameProgram (s t : State) : Prop :=
  (∀ a : Nat, t.prog.readByte a = s.prog.readByte a) ∧ t.prog = s.prog ∧ t.progLen = s.progLen

/-- The effect of an instruction that writes one register: `x[i]` is `v`, every other register and every
other piece of state is as before. The state `s` is the one the executing instruction sees, its `pc`
already `pc_next`. -/
def WritesReg (s t : State) (i : Fin 8) (v : Word) : Prop :=
  t.readReg i = v ∧ (∀ j : Fin 8, j ≠ i → t.readReg j = s.readReg j) ∧ t.pc = s.pc ∧
    SameStatus s t ∧ t.events = s.events ∧ SameProgram s t

/-- The effect of taking a fault (60_exceptions.md R205): Faulted with the record filled, `fault_addr`
the index of the instruction (`pc` - 1 as the executing instruction sees it), and no other change. -/
def TakesFault (s t : State) (c : FaultCause) (info : Word) : Prop :=
  t.run = .faulted ∧ t.faultCause = c ∧ t.faultInfo = info ∧ t.faultAddr = s.pc - 1#32 ∧
    t.haltCause = s.haltCause ∧ SameRegs s t ∧ t.pc = s.pc ∧ t.events = s.events ∧ SameProgram s t

/-- The effect of an instruction that only emits an event. -/
def EmitsOnly (s t : State) (e : Event) : Prop :=
  t.events = s.events ++ [e] ∧ SameRegs s t ∧ t.pc = s.pc ∧ SameStatus s t ∧ SameProgram s t

/-- The effect of a halt: Halted with its cause, and no other change (40_cycle.md R119). -/
def HaltsWith (s t : State) (c : HaltCause) : Prop :=
  t.run = .halted ∧ t.haltCause = c ∧ t.faultCause = s.faultCause ∧ t.faultInfo = s.faultInfo ∧
    t.faultAddr = s.faultAddr ∧ SameRegs s t ∧ t.pc = s.pc ∧ t.events = s.events ∧ SameProgram s t

/-- The effect of an instruction that at most writes `pc`. -/
def SetsPcOnly (s t : State) (v : Word) : Prop :=
  t.pc = v ∧ SameRegs s t ∧ SameStatus s t ∧ t.events = s.events ∧ SameProgram s t

/-! ## Operands and instruction shapes -/

/-- The second operand's value, where it has one: a literal's own value, or the content of the register
the whole field names (30_encoding.md R85). -/
def SrcValue (s : State) (b : Src2) (v : Word) : Prop :=
  match b with
  | .lit f => v.toNat = f.toNat
  | .reg f => ∃ i : Fin 8, f.toNat = i.val ∧ v = s.readReg i

/-- The twelve instructions of the common ALU shape (40_cycle.md R117). -/
def AluForm (mk : BitVec 5 → Src2 → BitVec 5 → Instr) : Prop :=
  mk = Instr.add ∨ mk = Instr.sub ∨ mk = Instr.mul ∨ mk = Instr.div ∨ mk = Instr.and ∨
    mk = Instr.or ∨ mk = Instr.xor ∨ mk = Instr.shl ∨ mk = Instr.shr ∨ mk = Instr.slt ∨
    mk = Instr.sle ∨ mk = Instr.seq

/-- The three control transfers (45_control.md R183). -/
def IsTransfer (i : Instr) : Prop :=
  (∃ t rd, i = .jmp t rd) ∨ (∃ ra addr, i = .braz ra addr) ∨ (∃ ra addr, i = .branz ra addr)

/-- The destination field of an instruction that writes a register: `rd` of opcodes 1 to 12 and of `jmp`
(10_state.md R22). -/
def destField : Instr → Option (BitVec 5)
  | .stop => none
  | .add _ _ rd => some rd
  | .sub _ _ rd => some rd
  | .mul _ _ rd => some rd
  | .div _ _ rd => some rd
  | .and _ _ rd => some rd
  | .or _ _ rd => some rd
  | .xor _ _ rd => some rd
  | .shl _ _ rd => some rd
  | .shr _ _ rd => some rd
  | .slt _ _ rd => some rd
  | .sle _ _ rd => some rd
  | .seq _ _ rd => some rd
  | .load _ _ _ => none
  | .store _ _ _ => none
  | .jmp _ rd => some rd
  | .braz _ _ => none
  | .branz _ _ => none
  | .scall _ => none

/-- Every word of opcode `opc` decodes to the format E instruction `mk` of its fields
(30_encoding.md R65). -/
def EncodedAsE (opc : Nat) (mk : BitVec 5 → Src2 → BitVec 5 → Instr) : Prop :=
  ∀ w : Word, w.toNat / 2 ^ 27 = opc →
    decodeWord w = .ok (mk (w.extractLsb' 22 5)
      (if w.getLsbD 21 then .lit (w.extractLsb' 5 16) else .reg (w.extractLsb' 5 16))
      (w.extractLsb' 0 5))

/-! ## The invariant -/

/-- The word index of the instruction that emitted an event. -/
def Event.addr : Event → Word
  | .diag _ a _ _ _ _ => a
  | .syscall a _ => a

/-- The event is the one the program's word at its index emits (44_load_store.md R170, R171;
46_scall.md R190). -/
def EventFrom (s : State) (e : Event) : Prop :=
  e.addr.toNat < s.progLen.toNat ∧
    match e with
    | .diag .load a ra im op2 rd => ∃ b : Src2, b.imm = im ∧ b.op2 = op2 ∧
        decodeWord (s.prog.readWord a.toNat) = .ok (.load ra b rd)
    | .diag .store a ra im op2 rd => ∃ b : Src2, b.imm = im ∧ b.op2 = op2 ∧
        decodeWord (s.prog.readWord a.toNat) = .ok (.store ra b rd)
    | .syscall a num => decodeWord (s.prog.readWord a.toNat) = .ok (.scall num)

/-- The fault record holds no fault. -/
def NoFaultRecord (s : State) : Prop :=
  s.faultCause = .none ∧ s.faultInfo = 0#32 ∧ s.faultAddr = 0#32

/-- The fault record and `pc` of an instruction's fault: the faulting index is a word of the program and
`pc` is the index after it (60_exceptions.md R206). -/
def FaultAtWord (s : State) : Prop :=
  s.faultAddr.toNat < s.progLen.toNat ∧ s.pc.toNat = s.faultAddr.toNat + 1

/-- The fault record agrees with its cause (60_exceptions.md R200 to R204). -/
def FaultRecordOk (s : State) : Prop :=
  match s.faultCause with
  | .none => False
  | .programCounterOutOfRange =>
      s.faultInfo = s.pc ∧ s.faultAddr = s.pc ∧ s.progLen.toNat ≤ s.pc.toNat
  | .divisionByZero => s.faultInfo = 0#32 ∧ FaultAtWord s
  | .registerIndexOutOfRange =>
      8 ≤ s.faultInfo.toNat ∧ s.faultInfo.toNat < 2 ^ 21 ∧ FaultAtWord s
  | .shiftAmountOutOfRange => 32 ≤ s.faultInfo.toNat ∧ FaultAtWord s

/-- The halt record agrees with the word before `pc` (41_stop.md R130, R131; 40_cycle.md R119). -/
def HaltRecordOk (s : State) : Prop :=
  0 < s.pc.toNat ∧ s.pc.toNat ≤ s.progLen.toNat ∧
    ((s.haltCause = .stop ∧ (s.prog.readWord (s.pc.toNat - 1)).toNat / 2 ^ 27 = 0) ∨
      (s.haltCause = .unknownOpcode ∧ 19 ≤ (s.prog.readWord (s.pc.toNat - 1)).toNat / 2 ^ 27))

/-- The machine's invariant: the program store is canonical and holds only the program's words; the
cause records agree with the run state, with `pc` and with the program; every event of the trace is one
that the program's word at its index emits. -/
structure State.Inv (s : State) : Prop where
  storeWf : s.prog.wf = true
  storeWithin : s.prog.within s.progLen.toNat = true
  running : s.run = .running → s.haltCause = .none ∧ NoFaultRecord s
  halted : s.run = .halted → HaltRecordOk s ∧ NoFaultRecord s
  faulted : s.run = .faulted → s.haltCause = .none ∧ FaultRecordOk s
  trace : ∀ e ∈ s.events, EventFrom s e

end Sys2Proof.Machine
end

