-- ==== Sys2Proof/Certificates/Slice0/Obligations.lean ====
section
/-! DEFINITION. The statements for the provers, one per entry of OBLIGATIONS.json. The state that exec
sees is the state after the fetch: its `pc` is `pc_next` (40_cycle.md R113). -/

open Sys2Proof Sys2Proof.Machine

/-- For every 32-bit word, each of the nine decoded fields is the word shifted right to the field's
lowest bit, modulo 2 to the field's width, whatever the opcode (30_encoding.md R70, 00_scope.md
R5). -/
def Obligations.DecoderExtractsNineFields : Prop :=
  ∀ w : Word,
    (decodeFields w).opc.toNat = w.toNat / 2 ^ 27 % 2 ^ 5 ∧
    (decodeFields w).num.toNat = w.toNat % 2 ^ 27 ∧
    (decodeFields w).ra.toNat = w.toNat / 2 ^ 22 % 2 ^ 5 ∧
    (decodeFields w).addr.toNat = w.toNat % 2 ^ 22 ∧
    (decodeFields w).immj.toNat = w.toNat / 2 ^ 26 % 2 ∧
    (decodeFields w).tgt.toNat = w.toNat / 2 ^ 5 % 2 ^ 21 ∧
    (decodeFields w).rd.toNat = w.toNat % 2 ^ 5 ∧
    (decodeFields w).imm.toNat = w.toNat / 2 ^ 21 % 2 ∧
    (decodeFields w).op2.toNat = w.toNat / 2 ^ 5 % 2 ^ 16

/-- For every word: num is immj, tgt, rd and also ra, addr; ra is immj and the top four bits of tgt;
addr is imm, op2, rd; tgt is the low four bits of ra, imm, op2; op2 is the low sixteen bits of
tgt; the word is opc, num (30_encoding.md R72, a consequence the spec derives). -/
def Obligations.DecodedFieldsOverlapAsStated : Prop :=
  ∀ w : Word,
    (decodeFields w).num = (decodeFields w).immj ++ (decodeFields w).tgt ++ (decodeFields w).rd ∧
    (decodeFields w).num = (decodeFields w).ra ++ (decodeFields w).addr ∧
    (decodeFields w).ra = (decodeFields w).immj ++ (decodeFields w).tgt.extractLsb' 17 4 ∧
    (decodeFields w).addr = (decodeFields w).imm ++ (decodeFields w).op2 ++ (decodeFields w).rd ∧
    (decodeFields w).tgt =
      (decodeFields w).ra.extractLsb' 0 4 ++ (decodeFields w).imm ++ (decodeFields w).op2 ∧
    (decodeFields w).op2 = (decodeFields w).tgt.extractLsb' 0 16 ∧
    w = (decodeFields w).opc ++ (decodeFields w).num

/-- For every word: with opcode 0 to 18 it decodes to an instruction of that opcode and executes as
exactly that instruction in every state; with opcode 19 to 31 it halts with UnknownOpcode in every
state. The opcode field alone selects the instruction. -/
def Obligations.DispatchIsTotalByOpcode : Prop :=
  ∀ w : Word,
    (w.toNat / 2 ^ 27 ≤ 18 →
      ∃ i, decodeWord w = .ok i ∧ i.opcode.toNat = w.toNat / 2 ^ 27 ∧
        ∀ s, executeWord w s = exec i s) ∧
    (19 ≤ w.toNat / 2 ^ 27 → ∀ s, ∃ t, executeWord w s = .next t ∧ HaltsWith s t .unknownOpcode)

/-- For every instruction, every operand at every value its field admits (so for every well-formed
one): decoding its word answers it, and decoding the bytes of its word, laid out in either byte
order and followed by any bytes, answers it and those bytes. -/
def Obligations.DecodeEncodeRoundTrip : Prop :=
  ∀ i : Instr,
    decodeWord (encode i) = .ok i ∧
      ∀ (o : ByteOrder) (rest : List Byte),
        decodeBytes o (bytesOfWord o (encode i) ++ rest) = .ok (i, rest)

/-- One word of each format, as 95_test_vectors.md writes it, decodes to the instruction it stands
for. -/
def Obligations.WordsWrittenFromTheSpecDecode : Prop :=
  decodeWord 0x00000000#32 = .ok .stop ∧
    decodeWord 0x09FFFFE7#32 = .ok (.add 7#5 (.lit 65535#16) 7#5) ∧
    decodeWord 0x50C00025#32 = .ok (.slt 3#5 (.reg 1#16) 5#5) ∧
    decodeWord 0x70400082#32 = .ok (.store 1#5 (.reg 4#16) 2#5) ∧
    decodeWord 0x7FFFFFE7#32 = .ok (.jmp (.direct 2097151#21) 7#5) ∧
    decodeWord 0x780000C0#32 = .ok (.jmp (.reg 6#21) 0#5) ∧
    decodeWord 0x89FFFFFF#32 = .ok (.branz 7#5 4194303#22) ∧
    decodeWord 0x9000002A#32 = .ok (.scall 42#27)

/-- Two words of one opcode that agree on the fields that opcode consumes (R82) execute alike in every
state; every word below 2^27 is stop; and scall, braz, branz and jmp have no unused bit, so that
two words of such an opcode that decode alike are the same word. -/
def Obligations.IgnoredBitsChangeNothing : Prop :=
  (∀ w w' : Word,
    (decodeFields w).opc = (decodeFields w').opc →
    ((decodeFields w).opc.toNat = 18 → (decodeFields w).num = (decodeFields w').num) →
    ((decodeFields w).opc.toNat = 16 ∨ (decodeFields w).opc.toNat = 17 →
      (decodeFields w).ra = (decodeFields w').ra ∧ (decodeFields w).addr = (decodeFields w').addr) →
    ((decodeFields w).opc.toNat = 15 →
      (decodeFields w).immj = (decodeFields w').immj ∧
        (decodeFields w).tgt = (decodeFields w').tgt ∧ (decodeFields w).rd = (decodeFields w').rd) →
    (1 ≤ (decodeFields w).opc.toNat ∧ (decodeFields w).opc.toNat ≤ 14 →
      (decodeFields w).ra = (decodeFields w').ra ∧ (decodeFields w).imm = (decodeFields w').imm ∧
        (decodeFields w).op2 = (decodeFields w').op2 ∧ (decodeFields w).rd = (decodeFields w').rd) →
    ∀ s, executeWord w s = executeWord w' s) ∧
  (∀ w : Word, w.toNat < 2 ^ 27 → decodeWord w = .ok .stop) ∧
  (∀ w w' : Word, 15 ≤ (decodeFields w).opc.toNat → (decodeFields w).opc.toNat ≤ 18 →
    decodeWord w = decodeWord w' → w = w')

/-- For every instruction the encoder, given its opcode and its operands, answers the instruction's
word where the instruction is well formed and refuses with InvalidRegister where it is not
(30_encoding.md R94, R95; the refusal is the spec's decision D12 to D16, log 21). -/
def Obligations.EncoderAgreesWithInstructionWords : Prop :=
  ∀ i : Instr,
    encoder i.opcode i.operands =
      if i.wellFormed = true then .ok (encode i) else .error .invalidRegister

/-- For every opcode and operand list: an opcode above 18 is BadOpcode; else a count other than 0, 1,
2 or 3 as the opcode requires is BadOperandCount; else per layout a wrong kind, then a register of
8 or more, then a value too wide for its field is refused in that order, and otherwise the word is
the stated sum of shifted fields (30_encoding.md R93 to R96; the refusals are the spec's
decisions, log 21). -/
def Obligations.EncoderFollowsItsChecksAndPacking : Prop :=
  (∀ (op : BitVec 5) (ops : List Operand), 19 ≤ op.toNat → encoder op ops = .error .badOpcode) ∧
  (∀ (op : BitVec 5) (ops : List Operand), op.toNat ≤ 18 →
    ops.length ≠ (if op.toNat = 0 then 0 else if op.toNat ≤ 14 then 3 else if op.toNat ≤ 17 then 2 else 1) →
    encoder op ops = .error .badOperandCount) ∧
  encoder 0#5 [] = .ok 0#32 ∧
  (∀ o1 : Operand, encoder 18#5 [o1] =
    if o1.isReg then .error .operandKindMismatch
    else if 2 ^ 27 ≤ o1.val.toNat then .error .fieldOverflow
    else .ok (BitVec.ofNat 32 (18 * 2 ^ 27 + o1.val.toNat))) ∧
  (∀ (op : BitVec 5) (o1 o2 : Operand), op = 16#5 ∨ op = 17#5 → encoder op [o1, o2] =
    if o1.isReg = false ∨ o2.isReg = true then .error .operandKindMismatch
    else if 8 ≤ o1.val.toNat then .error .invalidRegister
    else if 2 ^ 22 ≤ o2.val.toNat then .error .fieldOverflow
    else .ok (BitVec.ofNat 32 (op.toNat * 2 ^ 27 + o1.val.toNat * 2 ^ 22 + o2.val.toNat))) ∧
  (∀ o1 o2 : Operand, encoder 15#5 [o1, o2] =
    if o2.isReg = false then .error .operandKindMismatch
    else if (o1.isReg = true ∧ 8 ≤ o1.val.toNat) ∨ 8 ≤ o2.val.toNat then .error .invalidRegister
    else if o1.isReg = false ∧ 2 ^ 21 ≤ o1.val.toNat then .error .fieldOverflow
    else .ok (BitVec.ofNat 32 (15 * 2 ^ 27 + (if o1.isReg then 0 else 2 ^ 26) + o1.val.toNat * 2 ^ 5 +
      o2.val.toNat))) ∧
  (∀ (op : BitVec 5) (o1 o2 o3 : Operand), 1 ≤ op.toNat → op.toNat ≤ 14 → encoder op [o1, o2, o3] =
    if o1.isReg = false ∨ o3.isReg = false then .error .operandKindMismatch
    else if 8 ≤ o1.val.toNat ∨ (o2.isReg = true ∧ 8 ≤ o2.val.toNat) ∨ 8 ≤ o3.val.toNat then
      .error .invalidRegister
    else if o2.isReg = false ∧ 2 ^ 16 ≤ o2.val.toNat then .error .fieldOverflow
    else .ok (BitVec.ofNat 32 (op.toNat * 2 ^ 27 + o1.val.toNat * 2 ^ 22 +
      (if o2.isReg then 0 else 2 ^ 21) + o2.val.toNat * 2 ^ 5 + o3.val.toNat)))

/-- For every opcode, operands and word with the encoder answering that word: opc is the opcode, and
the fields of the opcode's format are the operands' values, the imm-flags being 1 for a value and
0 for a register (30_encoding.md R97, a consequence the spec derives). -/
def Obligations.EncoderOutputDecodesToItsOperands : Prop :=
  ∀ (op : BitVec 5) (ops : List Operand) (w : Word), encoder op ops = .ok w →
    (decodeFields w).opc = op ∧
    (op.toNat = 0 → ops = []) ∧
    (op.toNat = 18 → ∃ o1, ops = [o1] ∧ (decodeFields w).num.toNat = o1.val.toNat) ∧
    (op.toNat = 16 ∨ op.toNat = 17 →
      ∃ o1 o2, ops = [o1, o2] ∧ (decodeFields w).ra.toNat = o1.val.toNat ∧
        (decodeFields w).addr.toNat = o2.val.toNat) ∧
    (op.toNat = 15 →
      ∃ o1 o2, ops = [o1, o2] ∧ (decodeFields w).immj.toNat = (if o1.isReg then 0 else 1) ∧
        (decodeFields w).tgt.toNat = o1.val.toNat ∧ (decodeFields w).rd.toNat = o2.val.toNat) ∧
    (1 ≤ op.toNat ∧ op.toNat ≤ 14 →
      ∃ o1 o2 o3, ops = [o1, o2, o3] ∧ (decodeFields w).ra.toNat = o1.val.toNat ∧
        (decodeFields w).imm.toNat = (if o2.isReg then 0 else 1) ∧
        (decodeFields w).op2.toNat = o2.val.toNat ∧ (decodeFields w).rd.toNat = o3.val.toNat)

/-- A word the encoder answers, executed in any state whose record does not already hold
RegisterIndexOutOfRange, answers a next state whose record does not hold it (30_encoding.md R98, a
consequence the spec derives from its decision D4). -/
def Obligations.EncodedWordsRaiseNoIndexFault : Prop :=
  ∀ (op : BitVec 5) (ops : List Operand) (w : Word) (s : State), encoder op ops = .ok w →
    s.faultCause ≠ .registerIndexOutOfRange →
    ∃ t, executeWord w s = .next t ∧ t.faultCause ≠ .registerIndexOutOfRange

/-- For either value of WORD_STREAM_BYTE_ORDER and every list of words, reading the stream's bytes
gives the words back, and the stream has four bytes a word (20_memory.md R45: the parameter has no
effect on any rule, decision D17). -/
def Obligations.WordStreamRoundTripsInEitherByteOrder : Prop :=
  ∀ (o : ByteOrder) (ws : List Word),
    streamWords o (streamBytes o ws) = some ws ∧ (streamBytes o ws).length = 4 * ws.length

/-- Where a source text assembles, the program has as many words as the source has lines that are not
labels, comments or blank (30_encoding.md R104; the front end is supporting material, log 23). -/
def Obligations.AssemblyYieldsOneWordPerInstructionLine : Prop :=
  ∀ (src : Assembler.Text) (ws : List Word), Assembler.assemble src = .ok ws →
    ws.length = ((Assembler.sourceLines src).filter (fun l => Assembler.labelOf l = none)).length

/-- Where the first pass succeeds, a label line anywhere in the source binds its name to the number of
instruction lines before it, whatever comes later (30_encoding.md R101). -/
def Obligations.LabelsBindTheNextInstructionIndex : Prop :=
  ∀ (lines pre post : List Assembler.Text) (line name : Assembler.Text) (ls : Assembler.Labels),
    lines = pre ++ line :: post → Assembler.labelOf line = some name →
    Assembler.collectLabels [] 0 lines = .ok ls →
    Assembler.lookupLabel ls name = some (pre.filter (fun l => Assembler.labelOf l = none)).length

/-- After the host loads a list of words, PROG_LEN is the list's length and the word at every index
below it is the list's word there (20_memory.md R40, 70_reset_and_hazards.md R233). -/
def Obligations.LoadedProgramReadsBack : Prop :=
  ∀ (s t : State) (ws : List Word), s.loadProgram ws = some t →
    t.progLen.toNat = ws.length ∧ ∀ (a : Nat) (h : a < ws.length), t.prog.readWord a = ws[a]

/-- From every state, a step that answers a next state leaves every byte of the program store and
PROG_LEN as they were (20_memory.md R41). -/
def Obligations.NoStepWritesTheProgram : Prop :=
  ∀ s t : State, step s = .next t → SameProgram s t

/-- Where the machine runs, pc is below PROG_LEN and the word at pc decodes to an instruction, the
step is exec of that instruction on the state whose pc is one more, the increment not wrapping,
and which is otherwise the same (40_cycle.md R110, R113). -/
def Obligations.StepRunsTheDecodedInstruction : Prop :=
  ∀ (s : State) (i : Instr), s.run = .running → s.pc.toNat < s.progLen.toNat →
    decodeWord (s.prog.readWord s.pc.toNat) = .ok i →
    step s = exec i { s with pc := s.pc + 1#32 } ∧ (s.pc + 1#32).toNat = s.pc.toNat + 1

/-- Where the machine runs and pc is at or beyond PROG_LEN, the step enters Faulted with
ProgramCounterOutOfRange, fault_info and fault_addr both pc; pc, every register, the halt cause,
the events and the program stay. -/
def Obligations.PcOutOfRangeFaultsBeforeTheFetch : Prop :=
  ∀ s : State, s.run = .running → s.progLen.toNat ≤ s.pc.toNat →
    ∃ t, step s = .next t ∧ t.run = .faulted ∧ t.faultCause = .programCounterOutOfRange ∧
      t.faultInfo = s.pc ∧ t.faultAddr = s.pc ∧ t.pc = s.pc ∧ SameRegs s t ∧
      t.haltCause = s.haltCause ∧ t.events = s.events ∧ SameProgram s t

/-- From every state that is halted or faulted, any number of steps answers that same state. That a
terminal state answers itself is the model's reading of 'no change of any state' (40_cycle.md
R111), log 5. -/
def Obligations.StoppedMachineNeverMoves : Prop :=
  ∀ (s : State) (k : Nat), s.run ≠ .running → runSteps k s = .next s

/-- Where the machine runs, pc is below PROG_LEN and the word there is 0x98000000 or more, the step
halts with UnknownOpcode, pc one more than before and all else unchanged; and no word the encoder
answers is of this kind. -/
def Obligations.UnrecognizedOpcodeHalts : Prop :=
  (∀ s : State, s.run = .running → s.pc.toNat < s.progLen.toNat →
    0x98000000 ≤ (s.prog.readWord s.pc.toNat).toNat →
    ∃ t, step s = .next t ∧ HaltsWith { s with pc := s.pc + 1#32 } t .unknownOpcode) ∧
  (∀ (op : BitVec 5) (ops : List Operand) (w : Word), encoder op ops = .ok w → w.toNat < 0x98000000)

/-- From every state the step answers a next state, never the host's outcomes fault or refused: every
word has a behaviour and every fault of the spec is a state (30_encoding.md R81, 60_exceptions.md
R205). That a fault is a next state is the model's form, log 6. -/
def Obligations.EveryStepAnswersANextState : Prop :=
  ∀ s : State, ∃ t, step s = .next t

/-- From every running state, a step that ends in Faulted leaves every register, the halt cause, the
events and the program unchanged, and fault_addr is the pc the cycle started with; pc is one more
where a word was fetched, and then the cause is not ProgramCounterOutOfRange, and unchanged where
none was, and then it is (60_exceptions.md R205, R206). -/
def Obligations.FaultsArePrecise : Prop :=
  ∀ s t : State, s.run = .running → step s = .next t → t.run = .faulted →
    SameRegs s t ∧ t.haltCause = s.haltCause ∧ t.events = s.events ∧ SameProgram s t ∧
    t.faultAddr = s.pc ∧
    (if s.pc.toNat < s.progLen.toNat then
      t.pc = s.pc + 1#32 ∧ t.faultCause ≠ .programCounterOutOfRange ∧ t.faultCause ≠ .none
    else t.pc = s.pc ∧ t.faultCause = .programCounterOutOfRange)

/-- From every running state whose step answers t: t is halted by stop exactly where the word fetched
has opcode 0, halted by UnknownOpcode exactly where it has opcode 19 or more, and halted in no
other way; t is faulted with ProgramCounterOutOfRange exactly where pc was at or beyond PROG_LEN,
and any other fault is DivisionByZero of a fetched div, RegisterIndexOutOfRange of a fetched
opcode 1 to 12 or 15 to 17, or ShiftAmountOutOfRange of a fetched shl or shr (41_stop.md R132,
60_exceptions.md R200). -/
def Obligations.RunEndsOnlyInTheStatedWays : Prop :=
  ∀ s t : State, s.run = .running → step s = .next t →
    (t.run = .halted ∧ t.haltCause = .stop ↔
      s.pc.toNat < s.progLen.toNat ∧ (s.prog.readWord s.pc.toNat).toNat / 2 ^ 27 = 0) ∧
    (t.run = .halted ∧ t.haltCause = .unknownOpcode ↔
      s.pc.toNat < s.progLen.toNat ∧ 19 ≤ (s.prog.readWord s.pc.toNat).toNat / 2 ^ 27) ∧
    (t.run = .halted → t.haltCause ≠ .none) ∧
    (t.run = .faulted ∧ t.faultCause = .programCounterOutOfRange ↔
      s.progLen.toNat ≤ s.pc.toNat) ∧
    (t.run = .faulted → t.faultCause ≠ .programCounterOutOfRange →
      (t.faultCause = .divisionByZero ∧ (s.prog.readWord s.pc.toNat).toNat / 2 ^ 27 = 4) ∨
      (t.faultCause = .registerIndexOutOfRange ∧
        ((1 ≤ (s.prog.readWord s.pc.toNat).toNat / 2 ^ 27 ∧
            (s.prog.readWord s.pc.toNat).toNat / 2 ^ 27 ≤ 12) ∨
          (15 ≤ (s.prog.readWord s.pc.toNat).toNat / 2 ^ 27 ∧
            (s.prog.readWord s.pc.toNat).toNat / 2 ^ 27 ≤ 17))) ∨
      (t.faultCause = .shiftAmountOutOfRange ∧
        ((s.prog.readWord s.pc.toNat).toNat / 2 ^ 27 = 8 ∨
          (s.prog.readWord s.pc.toNat).toNat / 2 ^ 27 = 9)))

/-- Every word of opcode 1 is `add` of its format E fields; and for every state, with the first
source's index i, the destination's index j and the second operand's value b (a literal, or a
register's content), add answers a next state in which x[j] is the sum of x[i] and b modulo 2^32,
and every other register, pc, the status, the events and the program are unchanged. -/
def Obligations.AddWritesTheSumModulo : Prop :=
  EncodedAsE 1 Instr.add ∧
  ∀ (s : State) (ra : BitVec 5) (b : Src2) (rd : BitVec 5) (i j : Fin 8) (vb : Word),
    ra.toNat = i.val → SrcValue s b vb → rd.toNat = j.val →
    ∃ t v, exec (.add ra b rd) s = .next t ∧ WritesReg s t j v ∧
      v.toNat = ((s.readReg i).toNat + vb.toNat) % 2 ^ 32

/-- Every word of opcode 2 is `sub` of its format E fields; and for every state, with the first
source's index i, the destination's index j and the second operand's value b (a literal, or a
register's content), sub answers a next state in which x[j] is x[i] minus b modulo 2^32, and every
other register, pc, the status, the events and the program are unchanged; that sub subtracts is
PRESUMED from its mnemonic (93_implementation_defined.md G1, log 13). -/
def Obligations.SubWritesTheDifferenceModulo : Prop :=
  EncodedAsE 2 Instr.sub ∧
  ∀ (s : State) (ra : BitVec 5) (b : Src2) (rd : BitVec 5) (i j : Fin 8) (vb : Word),
    ra.toNat = i.val → SrcValue s b vb → rd.toNat = j.val →
    ∃ t v, exec (.sub ra b rd) s = .next t ∧ WritesReg s t j v ∧
      v.toNat = ((s.readReg i).toNat + 2 ^ 32 - vb.toNat) % 2 ^ 32

/-- Every word of opcode 3 is `mul` of its format E fields; and for every state, with the first
source's index i, the destination's index j and the second operand's value b (a literal, or a
register's content), mul answers a next state in which x[j] is the product of x[i] and b modulo
2^32, and every other register, pc, the status, the events and the program are unchanged; that mul
multiplies is PRESUMED from its mnemonic (93_implementation_defined.md G1, log 13). -/
def Obligations.MulWritesTheLowProduct : Prop :=
  EncodedAsE 3 Instr.mul ∧
  ∀ (s : State) (ra : BitVec 5) (b : Src2) (rd : BitVec 5) (i j : Fin 8) (vb : Word),
    ra.toNat = i.val → SrcValue s b vb → rd.toNat = j.val →
    ∃ t v, exec (.mul ra b rd) s = .next t ∧ WritesReg s t j v ∧
      v.toNat = ((s.readReg i).toNat * vb.toNat) % 2 ^ 32

/-- Every word of opcode 4 is `div` of its format E fields; and for every state, with the first
source's index i, the destination's index j and the second operand's value b (a literal, or a
register's content), div answers a next state in which x[j] is the floor of x[i] divided by b, and
every other register, pc, the status, the events and the program are unchanged, where b is not 0;
that the quotient is unsigned is the spec's reading D8 (log 11). -/
def Obligations.DivWritesTheUnsignedQuotient : Prop :=
  EncodedAsE 4 Instr.div ∧
  ∀ (s : State) (ra : BitVec 5) (b : Src2) (rd : BitVec 5) (i j : Fin 8) (vb : Word),
    ra.toNat = i.val → SrcValue s b vb → rd.toNat = j.val → vb ≠ 0#32 →
    ∃ t v, exec (.div ra b rd) s = .next t ∧ WritesReg s t j v ∧
      v.toNat = (s.readReg i).toNat / vb.toNat

/-- Every word of opcode 5 is `and` of its format E fields; and for every state, with the first
source's index i, the destination's index j and the second operand's value b (a literal, or a
register's content), and answers a next state in which x[j] is the bitwise AND of x[i] and b, and
every other register, pc, the status, the events and the program are unchanged; that `and` is the
bitwise AND is PRESUMED from its mnemonic (93_implementation_defined.md G1, log 13). -/
def Obligations.AndWritesTheBitwiseAnd : Prop :=
  EncodedAsE 5 Instr.and ∧
  ∀ (s : State) (ra : BitVec 5) (b : Src2) (rd : BitVec 5) (i j : Fin 8) (vb : Word),
    ra.toNat = i.val → SrcValue s b vb → rd.toNat = j.val →
    ∃ t v, exec (.and ra b rd) s = .next t ∧ WritesReg s t j v ∧
      ∀ k : Nat, v.getLsbD k = ((s.readReg i).getLsbD k && vb.getLsbD k)

/-- Every word of opcode 6 is `or` of its format E fields; and for every state, with the first
source's index i, the destination's index j and the second operand's value b (a literal, or a
register's content), or answers a next state in which x[j] is the bitwise inclusive OR of x[i] and
b, and every other register, pc, the status, the events and the program are unchanged; that `or`
is the bitwise inclusive OR is PRESUMED from its mnemonic (93_implementation_defined.md G1, log
13). -/
def Obligations.OrWritesTheBitwiseOr : Prop :=
  EncodedAsE 6 Instr.or ∧
  ∀ (s : State) (ra : BitVec 5) (b : Src2) (rd : BitVec 5) (i j : Fin 8) (vb : Word),
    ra.toNat = i.val → SrcValue s b vb → rd.toNat = j.val →
    ∃ t v, exec (.or ra b rd) s = .next t ∧ WritesReg s t j v ∧
      ∀ k : Nat, v.getLsbD k = ((s.readReg i).getLsbD k || vb.getLsbD k)

/-- Every word of opcode 7 is `xor` of its format E fields; and for every state, with the first
source's index i, the destination's index j and the second operand's value b (a literal, or a
register's content), xor answers a next state in which x[j] is the bitwise exclusive OR of x[i]
and b, and every other register, pc, the status, the events and the program are unchanged; that
xor is the bitwise exclusive OR is PRESUMED from its mnemonic (93_implementation_defined.md G1,
log 13). -/
def Obligations.XorWritesTheBitwiseXor : Prop :=
  EncodedAsE 7 Instr.xor ∧
  ∀ (s : State) (ra : BitVec 5) (b : Src2) (rd : BitVec 5) (i j : Fin 8) (vb : Word),
    ra.toNat = i.val → SrcValue s b vb → rd.toNat = j.val →
    ∃ t v, exec (.xor ra b rd) s = .next t ∧ WritesReg s t j v ∧
      ∀ k : Nat, v.getLsbD k = ((s.readReg i).getLsbD k ^^ vb.getLsbD k)

/-- Every word of opcode 8 is `shl` of its format E fields; and for every state, with the first
source's index i, the destination's index j and the second operand's value b (a literal, or a
register's content), shl answers a next state in which x[j] is x[i] times 2 to the b, modulo 2^32,
and every other register, pc, the status, the events and the program are unchanged, where b is
below 32; that shl shifts left is PRESUMED from its mnemonic (93_implementation_defined.md G1, log
13). -/
def Obligations.ShlWritesTheLeftShift : Prop :=
  EncodedAsE 8 Instr.shl ∧
  ∀ (s : State) (ra : BitVec 5) (b : Src2) (rd : BitVec 5) (i j : Fin 8) (vb : Word),
    ra.toNat = i.val → SrcValue s b vb → rd.toNat = j.val → vb.toNat < 32 →
    ∃ t v, exec (.shl ra b rd) s = .next t ∧ WritesReg s t j v ∧
      v.toNat = ((s.readReg i).toNat * 2 ^ vb.toNat) % 2 ^ 32

/-- Every word of opcode 9 is `shr` of its format E fields; and for every state, with the first
source's index i, the destination's index j and the second operand's value b (a literal, or a
register's content), shr answers a next state in which x[j] is the floor of x[i] divided by 2 to
the b, and every other register, pc, the status, the events and the program are unchanged, where b
is below 32; that the shift is logical is the spec's reading D8 (log 11), and that shr shifts
right is PRESUMED from its mnemonic (93_implementation_defined.md G1, log 13). -/
def Obligations.ShrWritesTheLogicalRightShift : Prop :=
  EncodedAsE 9 Instr.shr ∧
  ∀ (s : State) (ra : BitVec 5) (b : Src2) (rd : BitVec 5) (i j : Fin 8) (vb : Word),
    ra.toNat = i.val → SrcValue s b vb → rd.toNat = j.val → vb.toNat < 32 →
    ∃ t v, exec (.shr ra b rd) s = .next t ∧ WritesReg s t j v ∧
      v.toNat = (s.readReg i).toNat / 2 ^ vb.toNat

/-- Every word of opcode 10 is `slt` of its format E fields; and for every state, with the first
source's index i, the destination's index j and the second operand's value b (a literal, or a
register's content), slt answers a next state in which x[j] is 1 where x[i] is below b as unsigned
numbers and 0 otherwise, and every other register, pc, the status, the events and the program are
unchanged; that the comparison is unsigned is the spec's reading D8 (log 11), and that slt is set
if less than is PRESUMED from its mnemonic (93_implementation_defined.md G1, log 13). -/
def Obligations.SltWritesTheUnsignedLess : Prop :=
  EncodedAsE 10 Instr.slt ∧
  ∀ (s : State) (ra : BitVec 5) (b : Src2) (rd : BitVec 5) (i j : Fin 8) (vb : Word),
    ra.toNat = i.val → SrcValue s b vb → rd.toNat = j.val →
    ∃ t v, exec (.slt ra b rd) s = .next t ∧ WritesReg s t j v ∧
      v = if (s.readReg i).toNat < vb.toNat then 1#32 else 0#32

/-- Every word of opcode 11 is `sle` of its format E fields; and for every state, with the first
source's index i, the destination's index j and the second operand's value b (a literal, or a
register's content), sle answers a next state in which x[j] is 1 where x[i] is at most b as
unsigned numbers and 0 otherwise, and every other register, pc, the status, the events and the
program are unchanged; that the comparison is unsigned is the spec's reading D8 (log 11), and that
sle is set if less than or equal is PRESUMED from its mnemonic (93_implementation_defined.md G1,
log 13). -/
def Obligations.SleWritesTheUnsignedLessOrEqual : Prop :=
  EncodedAsE 11 Instr.sle ∧
  ∀ (s : State) (ra : BitVec 5) (b : Src2) (rd : BitVec 5) (i j : Fin 8) (vb : Word),
    ra.toNat = i.val → SrcValue s b vb → rd.toNat = j.val →
    ∃ t v, exec (.sle ra b rd) s = .next t ∧ WritesReg s t j v ∧
      v = if (s.readReg i).toNat ≤ vb.toNat then 1#32 else 0#32

/-- Every word of opcode 12 is `seq` of its format E fields; and for every state, with the first
source's index i, the destination's index j and the second operand's value b (a literal, or a
register's content), seq answers a next state in which x[j] is 1 where x[i] equals b in all 32
bits and 0 otherwise, and every other register, pc, the status, the events and the program are
unchanged. -/
def Obligations.SeqWritesTheEquality : Prop :=
  EncodedAsE 12 Instr.seq ∧
  ∀ (s : State) (ra : BitVec 5) (b : Src2) (rd : BitVec 5) (i j : Fin 8) (vb : Word),
    ra.toNat = i.val → SrcValue s b vb → rd.toNat = j.val →
    ∃ t v, exec (.seq ra b rd) s = .next t ∧ WritesReg s t j v ∧
      v = if s.readReg i = vb then 1#32 else 0#32

/-- For every state and a div whose register fields are in range, where the second operand's value is
0 (from a register or the literal 0) div takes the fault DivisionByZero with information 0, no
register written; and no other instruction ever makes the record DivisionByZero. -/
def Obligations.DivByZeroFaults : Prop :=
  (∀ (s : State) (ra : BitVec 5) (b : Src2) (rd : BitVec 5) (i j : Fin 8),
    ra.toNat = i.val → SrcValue s b 0#32 → rd.toNat = j.val →
    ∃ t, exec (.div ra b rd) s = .next t ∧ TakesFault s t .divisionByZero 0#32) ∧
  (∀ (i : Instr) (s t : State), exec i s = .next t → s.faultCause ≠ .divisionByZero →
    t.faultCause = .divisionByZero → ∃ ra b rd, i = .div ra b rd)

/-- For every state and a shl or shr whose register fields are in range, where the second operand's
value is 32 or more the instruction takes the fault ShiftAmountOutOfRange with that value as
information, no register written (42_arith_logic.md R151: the spec's own decision D7). -/
def Obligations.ShiftsBy32OrMoreFault : Prop :=
  ∀ (mk : BitVec 5 → Src2 → BitVec 5 → Instr) (s : State) (ra : BitVec 5) (b : Src2) (rd : BitVec 5)
    (i j : Fin 8) (vb : Word), mk = Instr.shl ∨ mk = Instr.shr →
    ra.toNat = i.val → SrcValue s b vb → rd.toNat = j.val → 32 ≤ vb.toNat →
    ∃ t, exec (mk ra b rd) s = .next t ∧ TakesFault s t .shiftAmountOutOfRange vb

/-- For each of the twelve ALU instructions in every state: with ra of 8 or more it takes
RegisterIndexOutOfRange with ra as information; else with a register operand of 8 or more it takes
it with op2; else with rd of 8 or more it takes it with rd, before any fault of its operation
(40_cycle.md R115, R117; 60_exceptions.md R210). The faults and their order are the spec's
decisions D4, D5 and D19. -/
def Obligations.AluIndexFaultsInOrder : Prop :=
  ∀ (mk : BitVec 5 → Src2 → BitVec 5 → Instr) (s : State) (ra : BitVec 5) (b : Src2) (rd : BitVec 5),
    AluForm mk →
    (8 ≤ ra.toNat → ∃ t, exec (mk ra b rd) s = .next t ∧
      TakesFault s t .registerIndexOutOfRange (BitVec.ofNat 32 ra.toNat)) ∧
    (∀ f : BitVec 16, ra.toNat < 8 → b = .reg f → 8 ≤ f.toNat →
      ∃ t, exec (mk ra b rd) s = .next t ∧
        TakesFault s t .registerIndexOutOfRange (BitVec.ofNat 32 f.toNat)) ∧
    (∀ vb : Word, ra.toNat < 8 → SrcValue s b vb → 8 ≤ rd.toNat →
      ∃ t, exec (mk ra b rd) s = .next t ∧
        TakesFault s t .registerIndexOutOfRange (BitVec.ofNat 32 rd.toNat))

/-- For every state: jmp with rd of 8 or more takes RegisterIndexOutOfRange with rd as information,
whatever its target; with rd below 8 and a register target whose whole field is 8 or more it takes
it with that field; neither the link nor pc is written (45_control.md R180; the spec's decisions). -/
def Obligations.JmpIndexFaultsInOrder : Prop :=
  ∀ (s : State) (tg : Target) (rd : BitVec 5),
    (8 ≤ rd.toNat → ∃ t, exec (.jmp tg rd) s = .next t ∧
      TakesFault s t .registerIndexOutOfRange (BitVec.ofNat 32 rd.toNat)) ∧
    (∀ f : BitVec 21, rd.toNat < 8 → tg = .reg f → 8 ≤ f.toNat →
      ∃ t, exec (.jmp tg rd) s = .next t ∧
        TakesFault s t .registerIndexOutOfRange (BitVec.ofNat 32 f.toNat))

/-- For every state, braz and branz with ra of 8 or more take RegisterIndexOutOfRange with ra as
information, and pc is not written (45_control.md R181, R182; the spec's decision D4). -/
def Obligations.BranchIndexFaults : Prop :=
  ∀ (s : State) (ra : BitVec 5) (addr : BitVec 22), 8 ≤ ra.toNat →
    (∃ t, exec (.braz ra addr) s = .next t ∧
      TakesFault s t .registerIndexOutOfRange (BitVec.ofNat 32 ra.toNat)) ∧
    (∃ t, exec (.branz ra addr) s = .next t ∧
      TakesFault s t .registerIndexOutOfRange (BitVec.ofNat 32 ra.toNat))

/-- For every state, stop answers a next state that is Halted with cause Stop, and the fault record,
every register, pc, the events and the program are unchanged; the encoder answers 0 for stop
(41_stop.md R130). -/
def Obligations.StopHalts : Prop :=
  (∀ s : State, ∃ t, exec .stop s = .next t ∧ HaltsWith s t .stop) ∧ encoder 0#5 [] = .ok 0#32

/-- Every word of opcode 13 is load of its format E fields; and for every state and every value of the
fields, also of 8 or more, load answers a next state whose trace has one more event, the
diagnostic load with the instruction's index (pc - 1 as load sees it, log 4), ra, imm, op2 and rd;
every register, pc, the status and the program are unchanged (44_load_store.md; the event's
content and the unchecked fields are the spec's decision D18). -/
def Obligations.LoadOnlyEmitsItsDiagnostic : Prop :=
  EncodedAsE 13 Instr.load ∧
  (∀ (s : State) (ra : BitVec 5) (f : BitVec 16) (rd : BitVec 5),
    (∃ t, exec (.load ra (.reg f) rd) s = .next t ∧
      EmitsOnly s t (.diag .load (s.pc - 1#32) ra 0#1 f rd)) ∧
    (∃ t, exec (.load ra (.lit f) rd) s = .next t ∧
      EmitsOnly s t (.diag .load (s.pc - 1#32) ra 1#1 f rd)))

/-- Every word of opcode 14 is store of its format E fields; and for every state and every value of
the fields, also of 8 or more, store answers a next state whose trace has one more event, the
diagnostic store with the instruction's index (pc - 1 as store sees it, log 4), ra, imm, op2 and
rd; every register, pc, the status and the program are unchanged (44_load_store.md; the event's
content and the unchecked fields are the spec's decision D18). -/
def Obligations.StoreOnlyEmitsItsDiagnostic : Prop :=
  EncodedAsE 14 Instr.store ∧
  (∀ (s : State) (ra : BitVec 5) (f : BitVec 16) (rd : BitVec 5),
    (∃ t, exec (.store ra (.reg f) rd) s = .next t ∧
      EmitsOnly s t (.diag .store (s.pc - 1#32) ra 0#1 f rd)) ∧
    (∃ t, exec (.store ra (.lit f) rd) s = .next t ∧
      EmitsOnly s t (.diag .store (s.pc - 1#32) ra 1#1 f rd)))

/-- Every word of opcode 18 is scall of its low 27 bits; for every state and number, scall answers a
next state whose trace has one more event, Syscall of the instruction's index (pc - 1 as scall
sees it, log 4) and the number; every register, pc, the status and the program are unchanged, and
the machine stays as running as it was; the encoder refuses a register operand (46_scall.md R190). -/
def Obligations.ScallOnlyEmitsItsNumber : Prop :=
  (∀ w : Word, w.toNat / 2 ^ 27 = 18 → decodeWord w = .ok (.scall (w.extractLsb' 0 27))) ∧
  (∀ (s : State) (num : BitVec 27), ∃ t, exec (.scall num) s = .next t ∧
    EmitsOnly s t (.syscall (s.pc - 1#32) num)) ∧
  (∀ v : Word, encoder 18#5 [.register v] = .error .operandKindMismatch)

/-- For every state, jmp of a direct 21-bit address with link register j answers a next state in which
x[j] is the old pc (pc_next), pc is the zero-extended address, and every other register, the
status, the events and the program are unchanged (45_control.md R180). -/
def Obligations.JmpDirectLinksAndJumps : Prop :=
  ∀ (s : State) (a : BitVec 21) (rd : BitVec 5) (j : Fin 8), rd.toNat = j.val →
    ∃ t, exec (.jmp (.direct a) rd) s = .next t ∧ t.readReg j = s.pc ∧
      (∀ r : Fin 8, r ≠ j → t.readReg r = s.readReg r) ∧ t.pc.toNat = a.toNat ∧
      SameStatus s t ∧ t.events = s.events ∧ SameProgram s t

/-- For every state, jmp through x[i] with link register j answers a next state in which x[j] is the
old pc (pc_next), every other register, the status, the events and the program are unchanged, and
pc is x[i] of before where i is not j and the old pc where i is j (45_control.md R180; the order
is the spec's reading D9). -/
def Obligations.JmpThroughRegisterReadsAfterTheLink : Prop :=
  ∀ (s : State) (f : BitVec 21) (rd : BitVec 5) (i j : Fin 8), f.toNat = i.val → rd.toNat = j.val →
    ∃ t, exec (.jmp (.reg f) rd) s = .next t ∧ t.readReg j = s.pc ∧
      (∀ r : Fin 8, r ≠ j → t.readReg r = s.readReg r) ∧
      t.pc = (if i = j then s.pc else s.readReg i) ∧
      SameStatus s t ∧ t.events = s.events ∧ SameProgram s t

/-- For every state, braz on x[i] answers a next state whose pc is the zero-extended absolute address
where x[i] is zero and the pc of before (pc_next) otherwise; every register, the status, the
events and the program are unchanged (45_control.md, R181). -/
def Obligations.BrazBranchesOnZero : Prop :=
  ∀ (s : State) (ra : BitVec 5) (addr : BitVec 22) (i : Fin 8), ra.toNat = i.val →
    ∃ t, exec (.braz ra addr) s = .next t ∧
      SetsPcOnly s t (if s.readReg i = 0#32 then BitVec.ofNat 32 addr.toNat else s.pc)

/-- For every state, branz on x[i] answers a next state whose pc is the zero-extended absolute address
where x[i] is not zero and the pc of before (pc_next) otherwise; every register, the status, the
events and the program are unchanged (45_control.md, R182). -/
def Obligations.BranzBranchesOnNonzero : Prop :=
  ∀ (s : State) (ra : BitVec 5) (addr : BitVec 22) (i : Fin 8), ra.toNat = i.val →
    ∃ t, exec (.branz ra addr) s = .next t ∧
      SetsPcOnly s t (if s.readReg i ≠ 0#32 then BitVec.ofNat 32 addr.toNat else s.pc)

/-- For every instruction that is no control transfer and every state, exec answers a next state with
the same pc (45_control.md R183, first sentence). -/
def Obligations.OnlyTransfersWritePc : Prop :=
  ∀ (i : Instr) (s : State), ¬ IsTransfer i → ∃ t, exec i s = .next t ∧ t.pc = s.pc

/-- For every instruction, state and register that the instruction's destination field does not name,
the register is unchanged in the next state; stop, load, store, braz, branz and scall have no
destination field (10_state.md R22). -/
def Obligations.OnlyTheDestinationRegisterChanges : Prop :=
  ∀ (i : Instr) (s t : State) (r : Fin 8), exec i s = .next t →
    (∀ f, destField i = some f → f.toNat ≠ r.val) → t.readReg r = s.readReg r

/-- In State.reset, and after the reset input in any state, every general register is 0, pc is 0 and
run is Running. -/
def Obligations.ResetZeroesTheMachine : Prop :=
  (∀ j : Fin 8, State.reset.readReg j = 0#32) ∧ State.reset.pc = 0#32 ∧ State.reset.run = .running ∧
  (∀ s : State, (∀ j : Fin 8, s.applyReset.readReg j = 0#32) ∧ s.applyReset.pc = 0#32 ∧
    s.applyReset.run = .running)

/-- After the reset input in any state the halt cause is None, the fault record holds no fault, the
trace is empty and the program and PROG_LEN are as before (10_state.md R33,
70_reset_and_hazards.md R230, R232; the spec's decision D22). -/
def Obligations.ResetClearsTheRecordsAndKeepsTheProgram : Prop :=
  ∀ s : State, s.applyReset.haltCause = .none ∧ NoFaultRecord s.applyReset ∧
    s.applyReset.events = [] ∧ SameProgram s s.applyReset ∧ activate true s = .next s.applyReset

/-- After the host loads a nonempty program and applies reset, the first step executes the program's
first word on the reset state with that program and pc 1 (70_reset_and_hazards.md R231, R233). -/
def Obligations.BootedMachineFetchesWordZero : Prop :=
  ∀ (s t : State) (w : Word) (ws : List Word), s.boot (w :: ws) = some t →
    t.pc = 0#32 ∧ t.run = .running ∧ step t = executeWord w { t with pc := 1#32 }

/-- For every program the host may load, the state after load and reset satisfies Inv (the store
is canonical and within PROG_LEN), runs, and holds no halt cause, an empty fault record and an
empty trace. -/
def Obligations.BootEstablishesTheInvariant : Prop :=
  ∀ (s t : State) (ws : List Word), s.boot ws = some t →
    t.Inv ∧ t.run = .running ∧ t.haltCause = .none ∧ NoFaultRecord t ∧ t.events = []

/-- State.reset satisfies Inv (10_state.md R32, R33; that reset holds no program is the model's
choice, log 1). -/
def Obligations.ResetSatisfiesTheInvariant : Prop :=
  State.reset.Inv

/-- For every state that satisfies Inv, if the step answers t then t satisfies Inv: the store is
canonical and within PROG_LEN; a running machine holds no cause; a halted one has the cause that
the word before pc gives; a faulted one has a record that agrees with its cause (information,
index, pc); and every event of the trace is one that the program's word at its index emits
(10_state.md R26 to R28, 60_exceptions.md R200 to R206, 40_cycle.md R119). -/
def Obligations.EveryStepKeepsTheInvariant : Prop :=
  ∀ s t : State, s.Inv → step s = .next t → t.Inv

/-- From every state whose step answers t, the trace is unchanged or has exactly one event more, which
is the step's event port, and then the word fetched has opcode 13, 14 or 18 (40_cycle.md R123,
10_state.md R30). -/
def Obligations.StepAppendsAtMostOneEvent : Prop :=
  ∀ s t : State, step s = .next t →
    t.events = s.events ∨
      ∃ e, t.events = s.events ++ [e] ∧ eventPort s t = [e] ∧ s.run = .running ∧
        ((s.prog.readWord s.pc.toNat).toNat / 2 ^ 27 = 13 ∨
          (s.prog.readWord s.pc.toNat).toNat / 2 ^ 27 = 14 ∨
          (s.prog.readWord s.pc.toNat).toNat / 2 ^ 27 = 18)

/-- For every state and number of steps there is one end state and one list of appended events such
that, whatever trace the run starts with, it ends in that state with that list appended to its
trace (10_state.md R30: 'No rule reads events; it cannot influence any later step'). -/
def Obligations.TraceNeverInfluencesTheRun : Prop :=
  ∀ (k : Nat) (s : State), ∃ (t : State) (d : List Event), ∀ e : List Event,
    runSteps k { s with events := e } = .next { t with events := e ++ d }

/-- For every running state at pc 0 and index m below PROG_LEN such that the words before m are
instructions other than stop and control transfers, the word at m is stop or unrecognized and no
fault occurs in the first m + 1 steps: after k <= m steps the machine runs with pc k, and after m
+ 1 steps it is halted with pc m + 1 and the cause of that word. With m = PROG_LEN - 1 and a stop
there, the run takes exactly PROG_LEN cycles. The cycle count is R122; that the halted machine's
pc is m + 1 is DEDUCED (decision D11, R119, log 14), and that the halt records the cause of its
word is the spec's decision D20 (R130, R131, log 16). -/
def Obligations.StraightLineProgramHaltsOnTime : Prop :=
  ∀ (s : State) (m : Nat), s.run = .running → s.pc = 0#32 → m < s.progLen.toNat →
    (∀ a, a < m → ∃ i, decodeWord (s.prog.readWord a) = .ok i ∧ ¬ IsTransfer i ∧ i ≠ .stop) →
    (decodeWord (s.prog.readWord m) = .ok .stop ∨ ∃ e, decodeWord (s.prog.readWord m) = .error e) →
    (∀ k t, k ≤ m + 1 → runSteps k s = .next t → t.run ≠ .faulted) →
    (∀ k, k ≤ m → ∃ t, runSteps k s = .next t ∧ t.run = .running ∧ t.pc.toNat = k) ∧
    ∃ t, runSteps (m + 1) s = .next t ∧ t.run = .halted ∧ t.pc.toNat = m + 1 ∧
      (decodeWord (s.prog.readWord m) = .ok .stop → t.EndedNormally) ∧
      ((∃ e, decodeWord (s.prog.readWord m) = .error e) → t.haltCause = .unknownOpcode)

/-- For every state the run_state port is 0, 1 or 2 for Running, Halted, Faulted; the halt_cause port
0, 1 or 2 for None, Stop, UnknownOpcode; the fault_cause port 0 to 4 in the order of the fault
table; and the information, index, register and pc ports show the state's (60_exceptions.md R200,
R207; the codes are the spec's decision D3). -/
def Obligations.StatusPortsCarryTheStatedCodes : Prop :=
  ∀ s : State,
    s.outputs.runState.toNat =
      (match s.run with | .running => 0 | .halted => 1 | .faulted => 2) ∧
    s.outputs.haltCause.toNat =
      (match s.haltCause with | .none => 0 | .stop => 1 | .unknownOpcode => 2) ∧
    s.outputs.faultCause.toNat =
      (match s.faultCause with
        | .none => 0
        | .programCounterOutOfRange => 1
        | .divisionByZero => 2
        | .registerIndexOutOfRange => 3
        | .shiftAmountOutOfRange => 4) ∧
    s.outputs.faultInfo = s.faultInfo ∧ s.outputs.faultAddr = s.faultAddr ∧
    s.outputs.x = s.x ∧ s.outputs.pc = s.pc ∧ s.outputs.progAddr = s.pc
end

