-- ==== Sys2Proof/Laws/Encoding.lean ====
section
/-! SUPPORT. The numeric value of a word of each format and of each field of a word: what later proofs
about encodings cite, so that they become arithmetic. -/

namespace Sys2Proof

/-- Concatenation as arithmetic. -/
theorem toNat_append_eq {n m : Nat} (x : BitVec n) (y : BitVec m) :
    (x ++ y).toNat = x.toNat * 2 ^ m + y.toNat := by
  rw [BitVec.toNat_append, ← Nat.shiftLeft_add_eq_or_of_lt y.isLt, Nat.shiftLeft_eq]

/-- A format E word as a number. -/
theorem wordE_toNat (op ra : BitVec 5) (b : Src2) (rd : BitVec 5) :
    (wordE op ra b rd).toNat =
      (((op.toNat * 2 ^ 5 + ra.toNat) * 2 ^ 1 + b.imm.toNat) * 2 ^ 16 + b.op2.toNat) * 2 ^ 5 + rd.toNat := by
  change (BitVec.append (BitVec.append (BitVec.append (BitVec.append op ra) b.imm) b.op2) rd).toNat = _
  simp only [BitVec.append_eq, toNat_append_eq]

/-- A format D word as a number. -/
theorem wordD_toNat (op : BitVec 5) (t : Target) (rd : BitVec 5) :
    (wordD op t rd).toNat =
      ((op.toNat * 2 ^ 1 + t.immj.toNat) * 2 ^ 21 + t.tgt.toNat) * 2 ^ 5 + rd.toNat := by
  change (BitVec.append (BitVec.append (BitVec.append op t.immj) t.tgt) rd).toNat = _
  simp only [BitVec.append_eq, toNat_append_eq]

/-- A format C word as a number. -/
theorem wordC_toNat (op ra : BitVec 5) (addr : BitVec 22) :
    (wordC op ra addr).toNat = (op.toNat * 2 ^ 5 + ra.toNat) * 2 ^ 22 + addr.toNat := by
  change (BitVec.append (BitVec.append op ra) addr).toNat = _
  simp only [BitVec.append_eq, toNat_append_eq]

/-- A format B word as a number. -/
theorem wordB_toNat (op : BitVec 5) (num : BitVec 27) :
    (wordB op num).toNat = op.toNat * 2 ^ 27 + num.toNat := by
  change (BitVec.append op num).toNat = _
  simp only [BitVec.append_eq, toNat_append_eq]

/-- A slice as arithmetic (00_scope.md R5). -/
theorem toNat_slice {n : Nat} (w : BitVec n) (lo len : Nat) :
    (w.extractLsb' lo len).toNat = w.toNat / 2 ^ lo % 2 ^ len := by
  rw [BitVec.extractLsb'_toNat, Nat.shiftRight_eq_div_pow]

end Sys2Proof
end

