-- ==== Sys2Proof/Laws/Decode.lean ====
section
/-! SUPPORT. The fields of a word of each format, the opcode of a word and of what it decodes to, and the
four bytes of a word. -/

namespace Sys2Proof

/-- A slice with a given numeric value. -/
theorem slice_eq {n : Nat} (w : Word) (lo : Nat) (x : BitVec n) (h : w.toNat / 2 ^ lo % 2 ^ n = x.toNat) :
    w.extractLsb' lo n = x := by
  apply BitVec.eq_of_toNat_eq
  rw [toNat_slice, h]

/-- The fields that format E uses (30_encoding.md R65). -/
theorem decodeFields_wordE (op ra : BitVec 5) (b : Src2) (rd : BitVec 5) :
    (decodeFields (wordE op ra b rd)).opc = op ∧ (decodeFields (wordE op ra b rd)).ra = ra ∧
      (decodeFields (wordE op ra b rd)).imm = b.imm ∧ (decodeFields (wordE op ra b rd)).op2 = b.op2 ∧
      (decodeFields (wordE op ra b rd)).rd = rd := by
  have h := wordE_toNat op ra b rd
  have h1 := op.isLt
  have h2 := ra.isLt
  have h3 := b.imm.isLt
  have h4 := b.op2.isLt
  have h5 := rd.isLt
  refine ⟨slice_eq _ _ _ ?_, slice_eq _ _ _ ?_, slice_eq _ _ _ ?_, slice_eq _ _ _ ?_,
    slice_eq _ _ _ ?_⟩ <;> rw [h] <;> omega

/-- The fields that format D uses (30_encoding.md R64). -/
theorem decodeFields_wordD (op : BitVec 5) (t : Target) (rd : BitVec 5) :
    (decodeFields (wordD op t rd)).opc = op ∧ (decodeFields (wordD op t rd)).immj = t.immj ∧
      (decodeFields (wordD op t rd)).tgt = t.tgt ∧ (decodeFields (wordD op t rd)).rd = rd := by
  have h := wordD_toNat op t rd
  have h1 := op.isLt
  have h2 := t.immj.isLt
  have h3 := t.tgt.isLt
  have h4 := rd.isLt
  refine ⟨slice_eq _ _ _ ?_, slice_eq _ _ _ ?_, slice_eq _ _ _ ?_, slice_eq _ _ _ ?_⟩ <;> rw [h] <;> omega

/-- The fields that format C uses (30_encoding.md R63). -/
theorem decodeFields_wordC (op ra : BitVec 5) (addr : BitVec 22) :
    (decodeFields (wordC op ra addr)).opc = op ∧ (decodeFields (wordC op ra addr)).ra = ra ∧
      (decodeFields (wordC op ra addr)).addr = addr := by
  have h := wordC_toNat op ra addr
  have h1 := op.isLt
  have h2 := ra.isLt
  have h3 := addr.isLt
  refine ⟨slice_eq _ _ _ ?_, slice_eq _ _ _ ?_, slice_eq _ _ _ ?_⟩ <;> rw [h] <;> omega

/-- The fields that format B uses (30_encoding.md R62). -/
theorem decodeFields_wordB (op : BitVec 5) (num : BitVec 27) :
    (decodeFields (wordB op num)).opc = op ∧ (decodeFields (wordB op num)).num = num := by
  have h := wordB_toNat op num
  have h1 := op.isLt
  have h2 := num.isLt
  refine ⟨slice_eq _ _ _ ?_, slice_eq _ _ _ ?_⟩ <;> rw [h] <;> omega

/-- The opcode of a word as a number. -/
theorem decodeFields_opc_toNat (w : Word) : (decodeFields w).opc.toNat = w.toNat / 2 ^ 27 := by
  have h := w.isLt
  simp only [decodeFields, toNat_slice]
  omega

/-- A word that decodes has an instruction of its opcode. -/
theorem decodeWord_ok_opcode (w : Word) (i : Instr) (h : decodeWord w = .ok i) :
    i.opcode.toNat = w.toNat / 2 ^ 27 := by
  rw [← decodeFields_opc_toNat]
  unfold decodeWord Decoded.instr at h
  split at h <;> first | cases h; simp_all [Instr.opcode] | cases h

/-- A word that does not decode has an opcode of 19 to 31. -/
theorem decodeWord_error_opcode (w : Word) (e : DecodeReject) (h : decodeWord w = .error e) :
    19 ≤ w.toNat / 2 ^ 27 := by
  rw [← decodeFields_opc_toNat]
  unfold decodeWord Decoded.instr at h
  split at h <;> cases h
  by_contra hlt
  generalize (decodeFields w).opc.toNat = n at *
  interval_cases n <;> simp_all

/-- The four bytes of a word make the word. -/
theorem bytesOfWord_spec (o : ByteOrder) (w : Word) :
    ∃ b0 b1 b2 b3, bytesOfWord o w = [b0, b1, b2, b3] ∧ wordOfBytes o b0 b1 b2 b3 = w := by
  have h := w.isLt
  cases o with
  | little =>
    refine ⟨_, _, _, _, rfl, BitVec.eq_of_toNat_eq ?_⟩
    change (BitVec.append (BitVec.append (BitVec.append _ _) _) _).toNat = _
    simp only [BitVec.append_eq, toNat_append_eq, toNat_slice]
    omega
  | big =>
    refine ⟨_, _, _, _, rfl, BitVec.eq_of_toNat_eq ?_⟩
    change (BitVec.append (BitVec.append (BitVec.append _ _) _) _).toNat = _
    simp only [BitVec.append_eq, toNat_append_eq, toNat_slice]
    omega

end Sys2Proof
end

