-- ==== Sys2Proof/Laws/Memory.lean ====
section
/-! SUPPORT. The laws of the program store: a byte reads what was written to it, every other byte reads as
before, and every operation keeps the canonical form. -/

namespace Sys2Proof.Machine

/-! ## Reading after writing -/

theorem Memory.readByte_of_lt (m : Memory) (a : Nat) (h : m.all (fun c => decide (a < c.1)) = true) :
    m.readByte a = Memory.unlisted := by
  induction m with
  | nil => rfl
  | cons c m ih =>
    obtain ⟨b, u⟩ := c
    simp only [List.all_cons, Bool.and_eq_true, decide_eq_true_eq] at h
    have hne : b ≠ a := by omega
    simp [Memory.readByte, hne, ih h.2]

/-- The parts of the canonical form of a nonempty store. -/
theorem Memory.wf_cons (b : Nat) (u : Byte) (m : Memory) :
    Memory.wf ((b, u) :: m) = true ↔
      u ≠ Memory.unlisted ∧ m.all (fun c => decide (b < c.1)) = true ∧ m.wf = true := by
  simp [Memory.wf, and_assoc]

/-- A byte reads what was written to it; every other byte reads as before. -/
theorem Memory.readByte_writeByte (m : Memory) (hm : m.wf = true) (a : Nat) (v : Byte) (b : Nat) :
    (m.writeByte a v).readByte b = if b = a then v else m.readByte b := by
  induction m with
  | nil =>
    simp only [Memory.writeByte]
    split
    · rename_i hv
      subst hv
      simp [Memory.readByte]
    · simp only [Memory.readByte, eq_comm]
  | cons c m ih =>
    obtain ⟨d, u⟩ := c
    obtain ⟨hu, hall, hwf⟩ := (Memory.wf_cons d u m).1 hm
    simp only [Memory.writeByte]
    split
    · rename_i had
      have hlt : Memory.readByte ((d, u) :: m) a = Memory.unlisted := by
        apply Memory.readByte_of_lt
        simp only [List.all_cons, Bool.and_eq_true, decide_eq_true_eq]
        refine ⟨had, ?_⟩
        simp only [List.all_eq_true, decide_eq_true_eq] at hall ⊢
        intro x hx
        have := hall x hx
        omega
      split
      · rename_i hv
        subst hv
        by_cases hb : b = a
        · subst hb
          simp [hlt]
        · simp [hb]
      · rw [Memory.readByte]
        simp only [eq_comm]
    · split
      · rename_i _ hda
        subst hda
        split
        · rename_i hv
          subst hv
          by_cases hb : b = a
          · subst hb
            simp [Memory.readByte_of_lt m b hall]
          · simp [Memory.readByte, hb, Ne.symm hb]
        · by_cases hb : b = a
          · subst hb
            simp [Memory.readByte]
          · simp [Memory.readByte, hb, Ne.symm hb]
      · rename_i hlt hne
        by_cases hb : b = a
        · subst hb
          have hdb : d ≠ b := fun h => hne h.symm
          simp [Memory.readByte, hdb, ih hwf]
        · by_cases hbd : d = b
          · simp [Memory.readByte, hbd, hb]
          · simp [Memory.readByte, hbd, hb, ih hwf]

/-! ## The canonical form -/

/-- Every address of the written store was listed or is the one written. -/
theorem Memory.mem_writeByte (m : Memory) (a : Nat) (v : Byte) (c : Host.Cell)
    (hc : c ∈ m.writeByte a v) : c.1 = a ∨ c ∈ m := by
  induction m with
  | nil =>
    simp only [Memory.writeByte] at hc
    split at hc
    · simp at hc
    · simp only [List.mem_singleton] at hc
      exact .inl (by rw [hc])
  | cons d m ih =>
    obtain ⟨b, u⟩ := d
    simp only [Memory.writeByte] at hc
    split at hc
    · split at hc
      · exact .inr hc
      · rcases List.mem_cons.1 hc with h | h
        · exact .inl (by rw [h])
        · exact .inr h
    · split at hc
      · split at hc
        · exact .inr (List.mem_cons_of_mem _ hc)
        · rcases List.mem_cons.1 hc with h | h
          · exact .inl (by rw [h])
          · exact .inr (List.mem_cons_of_mem _ h)
      · rcases List.mem_cons.1 hc with h | h
        · exact .inr (by rw [h]; exact List.mem_cons_self ..)
        · rcases ih h with h | h
          · exact .inl h
          · exact .inr (List.mem_cons_of_mem _ h)

/-- Writing a byte keeps the canonical form. -/
theorem Memory.wf_writeByte (m : Memory) (hm : m.wf = true) (a : Nat) (v : Byte) :
    (m.writeByte a v).wf = true := by
  induction m with
  | nil =>
    simp only [Memory.writeByte]
    split
    · rfl
    · rename_i hv
      simp [Memory.wf, hv]
  | cons d m ih =>
    obtain ⟨b, u⟩ := d
    obtain ⟨hu, hall, hwf⟩ := (Memory.wf_cons b u m).1 hm
    simp only [List.all_eq_true, decide_eq_true_eq] at hall
    simp only [Memory.writeByte]
    split
    · rename_i hab
      split
      · exact hm
      · rename_i hv
        rw [Memory.wf_cons]
        refine ⟨hv, ?_, hm⟩
        simp only [List.all_eq_true, decide_eq_true_eq]
        intro c hc
        rcases List.mem_cons.1 hc with h | h
        · rw [h]
          exact hab
        · have := hall c h
          omega
    · split
      · rename_i hab
        subst hab
        split
        · exact hwf
        · rename_i hv
          rw [Memory.wf_cons]
          exact ⟨hv, by simpa using hall, hwf⟩
      · rename_i hlt hne
        rw [Memory.wf_cons]
        refine ⟨hu, ?_, ih hwf⟩
        simp only [List.all_eq_true, decide_eq_true_eq]
        intro c hc
        rcases Memory.mem_writeByte m a v c hc with h | h
        · omega
        · exact hall c h

/-- Writing bytes keeps the canonical form. -/
theorem Memory.wf_writeBytes (vs : List Byte) (m : Memory) (hm : m.wf = true) (a : Nat) :
    (m.writeBytes a vs).wf = true := by
  induction vs generalizing m a with
  | nil => exact hm
  | cons v vs ih => exact ih _ (Memory.wf_writeByte m hm a v) _

/-- Placing a word keeps the canonical form. -/
theorem Memory.wf_writeWord (m : Memory) (hm : m.wf = true) (a : Nat) (w : Word) :
    (m.writeWord a w).wf = true :=
  Memory.wf_writeBytes _ m hm _

/-- Placing words keeps the canonical form. -/
theorem Memory.wf_writeWords (ws : List Word) (m : Memory) (hm : m.wf = true) (a : Nat) :
    (m.writeWords a ws).wf = true := by
  induction ws generalizing m a with
  | nil => exact hm
  | cons w ws ih => exact ih _ (Memory.wf_writeWord m hm a w) _

/-- The store after reset is in canonical form. -/
theorem State.reset_prog_wf : State.reset.prog.wf = true := rfl

/-- Loading a program leaves a store in canonical form. -/
theorem State.loadProgram_wf (s t : State) (ws : List Word) (h : s.loadProgram ws = some t) :
    t.prog.wf = true := by
  unfold State.loadProgram at h
  split at h
  · injection h with h
    rw [← h]
    exact Memory.wf_writeWords ws [] rfl 0
  · cases h

/-- Placing an instruction where the next step fetches keeps the canonical form. -/
theorem State.withWordAtPc_wf (s : State) (hs : s.prog.wf = true) (w : Word) :
    (s.withWordAtPc w).prog.wf = true :=
  Memory.wf_writeWord s.prog hs _ w

end Sys2Proof.Machine
end

