-- ==== Sys2Proof/Laws/State.lean ====
section
/-! SUPPORT. One lemma per field per update of the state, and what a register reads after each update. -/

namespace Sys2Proof.Machine

section
variable (s : State)

/-! ### writeReg -/

@[simp] theorem State.writeReg_x (i : Fin 8) (v : Word) : (s.writeReg i v).x = s.x.set i v := rfl
@[simp] theorem State.writeReg_pc (i : Fin 8) (v : Word) : (s.writeReg i v).pc = s.pc := rfl
@[simp] theorem State.writeReg_run (i : Fin 8) (v : Word) : (s.writeReg i v).run = s.run := rfl
@[simp] theorem State.writeReg_haltCause (i : Fin 8) (v : Word) : (s.writeReg i v).haltCause = s.haltCause := rfl
@[simp] theorem State.writeReg_faultCause (i : Fin 8) (v : Word) : (s.writeReg i v).faultCause = s.faultCause := rfl
@[simp] theorem State.writeReg_faultInfo (i : Fin 8) (v : Word) : (s.writeReg i v).faultInfo = s.faultInfo := rfl
@[simp] theorem State.writeReg_faultAddr (i : Fin 8) (v : Word) : (s.writeReg i v).faultAddr = s.faultAddr := rfl
@[simp] theorem State.writeReg_events (i : Fin 8) (v : Word) : (s.writeReg i v).events = s.events := rfl
@[simp] theorem State.writeReg_prog (i : Fin 8) (v : Word) : (s.writeReg i v).prog = s.prog := rfl
@[simp] theorem State.writeReg_progLen (i : Fin 8) (v : Word) : (s.writeReg i v).progLen = s.progLen := rfl

/-! ### setPc -/

@[simp] theorem State.setPc_x (v : Word) : (s.setPc v).x = s.x := rfl
@[simp] theorem State.setPc_pc (v : Word) : (s.setPc v).pc = v := rfl
@[simp] theorem State.setPc_run (v : Word) : (s.setPc v).run = s.run := rfl
@[simp] theorem State.setPc_haltCause (v : Word) : (s.setPc v).haltCause = s.haltCause := rfl
@[simp] theorem State.setPc_faultCause (v : Word) : (s.setPc v).faultCause = s.faultCause := rfl
@[simp] theorem State.setPc_faultInfo (v : Word) : (s.setPc v).faultInfo = s.faultInfo := rfl
@[simp] theorem State.setPc_faultAddr (v : Word) : (s.setPc v).faultAddr = s.faultAddr := rfl
@[simp] theorem State.setPc_events (v : Word) : (s.setPc v).events = s.events := rfl
@[simp] theorem State.setPc_prog (v : Word) : (s.setPc v).prog = s.prog := rfl
@[simp] theorem State.setPc_progLen (v : Word) : (s.setPc v).progLen = s.progLen := rfl

/-! ### advancePc -/

@[simp] theorem State.advancePc_x : s.advancePc.x = s.x := rfl
@[simp] theorem State.advancePc_pc : s.advancePc.pc = s.pc + 1#32 := rfl
@[simp] theorem State.advancePc_run : s.advancePc.run = s.run := rfl
@[simp] theorem State.advancePc_haltCause : s.advancePc.haltCause = s.haltCause := rfl
@[simp] theorem State.advancePc_faultCause : s.advancePc.faultCause = s.faultCause := rfl
@[simp] theorem State.advancePc_faultInfo : s.advancePc.faultInfo = s.faultInfo := rfl
@[simp] theorem State.advancePc_faultAddr : s.advancePc.faultAddr = s.faultAddr := rfl
@[simp] theorem State.advancePc_events : s.advancePc.events = s.events := rfl
@[simp] theorem State.advancePc_prog : s.advancePc.prog = s.prog := rfl
@[simp] theorem State.advancePc_progLen : s.advancePc.progLen = s.progLen := rfl

/-! ### emit -/

@[simp] theorem State.emit_x (e : Event) : (s.emit e).x = s.x := rfl
@[simp] theorem State.emit_pc (e : Event) : (s.emit e).pc = s.pc := rfl
@[simp] theorem State.emit_run (e : Event) : (s.emit e).run = s.run := rfl
@[simp] theorem State.emit_haltCause (e : Event) : (s.emit e).haltCause = s.haltCause := rfl
@[simp] theorem State.emit_faultCause (e : Event) : (s.emit e).faultCause = s.faultCause := rfl
@[simp] theorem State.emit_faultInfo (e : Event) : (s.emit e).faultInfo = s.faultInfo := rfl
@[simp] theorem State.emit_faultAddr (e : Event) : (s.emit e).faultAddr = s.faultAddr := rfl
@[simp] theorem State.emit_events (e : Event) : (s.emit e).events = s.events ++ [e] := rfl
@[simp] theorem State.emit_prog (e : Event) : (s.emit e).prog = s.prog := rfl
@[simp] theorem State.emit_progLen (e : Event) : (s.emit e).progLen = s.progLen := rfl

/-! ### halt -/

@[simp] theorem State.halt_x (c : HaltCause) : (s.halt c).x = s.x := rfl
@[simp] theorem State.halt_pc (c : HaltCause) : (s.halt c).pc = s.pc := rfl
@[simp] theorem State.halt_run (c : HaltCause) : (s.halt c).run = .halted := rfl
@[simp] theorem State.halt_haltCause (c : HaltCause) : (s.halt c).haltCause = c := rfl
@[simp] theorem State.halt_faultCause (c : HaltCause) : (s.halt c).faultCause = s.faultCause := rfl
@[simp] theorem State.halt_faultInfo (c : HaltCause) : (s.halt c).faultInfo = s.faultInfo := rfl
@[simp] theorem State.halt_faultAddr (c : HaltCause) : (s.halt c).faultAddr = s.faultAddr := rfl
@[simp] theorem State.halt_events (c : HaltCause) : (s.halt c).events = s.events := rfl
@[simp] theorem State.halt_prog (c : HaltCause) : (s.halt c).prog = s.prog := rfl
@[simp] theorem State.halt_progLen (c : HaltCause) : (s.halt c).progLen = s.progLen := rfl

/-! ### raise -/

@[simp] theorem State.raise_x (e : Trap) (a : Word) : (s.raise e a).x = s.x := rfl
@[simp] theorem State.raise_pc (e : Trap) (a : Word) : (s.raise e a).pc = s.pc := rfl
@[simp] theorem State.raise_run (e : Trap) (a : Word) : (s.raise e a).run = .faulted := rfl
@[simp] theorem State.raise_haltCause (e : Trap) (a : Word) : (s.raise e a).haltCause = s.haltCause := rfl
@[simp] theorem State.raise_faultCause (e : Trap) (a : Word) : (s.raise e a).faultCause = e.cause := rfl
@[simp] theorem State.raise_faultInfo (e : Trap) (a : Word) : (s.raise e a).faultInfo = e.info := rfl
@[simp] theorem State.raise_faultAddr (e : Trap) (a : Word) : (s.raise e a).faultAddr = a := rfl
@[simp] theorem State.raise_events (e : Trap) (a : Word) : (s.raise e a).events = s.events := rfl
@[simp] theorem State.raise_prog (e : Trap) (a : Word) : (s.raise e a).prog = s.prog := rfl
@[simp] theorem State.raise_progLen (e : Trap) (a : Word) : (s.raise e a).progLen = s.progLen := rfl

/-! ### applyReset -/

@[simp] theorem State.applyReset_x : s.applyReset.x = State.reset.x := rfl
@[simp] theorem State.applyReset_pc : s.applyReset.pc = 0#32 := rfl
@[simp] theorem State.applyReset_run : s.applyReset.run = .running := rfl
@[simp] theorem State.applyReset_haltCause : s.applyReset.haltCause = .none := rfl
@[simp] theorem State.applyReset_faultCause : s.applyReset.faultCause = .none := rfl
@[simp] theorem State.applyReset_faultInfo : s.applyReset.faultInfo = 0#32 := rfl
@[simp] theorem State.applyReset_faultAddr : s.applyReset.faultAddr = 0#32 := rfl
@[simp] theorem State.applyReset_events : s.applyReset.events = [] := rfl
@[simp] theorem State.applyReset_prog : s.applyReset.prog = s.prog := rfl
@[simp] theorem State.applyReset_progLen : s.applyReset.progLen = s.progLen := rfl

end

/-! ### Registers -/

/-- A register reads what was written to it; every other register reads as before. -/
theorem RegFile.get_set (r : RegFile) (i j : Fin 8) (v : Word) :
    (r.set i v).get j = if j = i then v else r.get j := by
  fin_cases i <;> fin_cases j <;> rfl

@[simp] theorem State.readReg_writeReg_same (s : State) (i : Fin 8) (v : Word) :
    (s.writeReg i v).readReg i = v := by
  simp [State.readReg, RegFile.get_set]

theorem State.readReg_writeReg_other (s : State) (i j : Fin 8) (v : Word) (h : j ≠ i) :
    (s.writeReg i v).readReg j = s.readReg j := by
  simp [State.readReg, RegFile.get_set, h]

/-- Two register files that read alike everywhere are equal. -/
theorem RegFile.ext_get (r q : RegFile) (h : ∀ i, r.get i = q.get i) : r = q := by
  cases r
  cases q
  simp only [RegFile.mk.injEq]
  exact ⟨h 0, h 1, h 2, h 3, h 4, h 5, h 6, h 7⟩

/-! ### Registers after the other updates -/

@[simp] theorem State.readReg_setPc (s : State) (v : Word) (j : Fin 8) : (s.setPc v).readReg j = s.readReg j := rfl
@[simp] theorem State.readReg_advancePc (s : State) (j : Fin 8) : s.advancePc.readReg j = s.readReg j := rfl
@[simp] theorem State.readReg_emit (s : State) (e : Event) (j : Fin 8) : (s.emit e).readReg j = s.readReg j := rfl
@[simp] theorem State.readReg_halt (s : State) (c : HaltCause) (j : Fin 8) : (s.halt c).readReg j = s.readReg j := rfl
@[simp] theorem State.readReg_raise (s : State) (e : Trap) (a : Word) (j : Fin 8) : (s.raise e a).readReg j = s.readReg j := rfl

@[simp] theorem State.readReg_applyReset (s : State) (j : Fin 8) : s.applyReset.readReg j = 0#32 := by
  fin_cases j <;> rfl

end Sys2Proof.Machine
end

