-- ==== Sys2Proof/Laws/Ops.lean ====
section
/-! SUPPORT. For each shared operation, what it can do: the lemmas later proofs cite instead of unfolding
the operation. -/

namespace Sys2Proof.Machine

/-- `RegIdx` answers a register exactly for a field below 8, and that register is the field's value. -/
theorem regIdx_ok_iff {w : Nat} (f : BitVec w) (i : Fin 8) : regIdx f = .ok i ↔ f.toNat = i.val := by
  unfold regIdx
  split
  · simp [Fin.ext_iff]
  · constructor
    · intro h
      cases h
    · intro h
      omega

/-- `RegIdx` raises exactly for a field of 8 or more, with the field as information. -/
theorem regIdx_error_iff {w : Nat} (f : BitVec w) (e : Trap) :
    regIdx f = .error e ↔ 8 ≤ f.toNat ∧ e = ⟨.registerIndexOutOfRange, f.setWidth 32⟩ := by
  unfold regIdx
  split
  · constructor
    · intro h
      cases h
    · intro h
      omega
  · rename_i hlt
    constructor
    · intro h
      injection h with h
      exact ⟨by omega, h.symm⟩
    · intro h
      rw [h.2]

/-- A register field's value is the content of the register it names. -/
theorem State.readField_of_eq {w : Nat} (s : State) (f : BitVec w) (i : Fin 8) (h : f.toNat = i.val) :
    s.readField f = .ok (s.readReg i) := by
  simp [State.readField, (regIdx_ok_iff f i).2 h]

/-- A register field of 8 or more raises. -/
theorem State.readField_of_ge {w : Nat} (s : State) (f : BitVec w) (h : 8 ≤ f.toNat) :
    s.readField f = .error ⟨.registerIndexOutOfRange, f.setWidth 32⟩ := by
  simp [State.readField, (regIdx_error_iff f _).2 ⟨h, rfl⟩]

/-- What reading a register field can do. -/
theorem State.readField_cases {w : Nat} (s : State) (f : BitVec w) :
    (∃ i : Fin 8, f.toNat = i.val ∧ s.readField f = .ok (s.readReg i)) ∨
      (8 ≤ f.toNat ∧ s.readField f = .error ⟨.registerIndexOutOfRange, f.setWidth 32⟩) := by
  by_cases h : f.toNat < 8
  · exact .inl ⟨⟨f.toNat, h⟩, rfl, s.readField_of_eq f _ rfl⟩
  · exact .inr ⟨by omega, s.readField_of_ge f (by omega)⟩

/-- What reading a second operand can do. -/
theorem State.src2_cases (s : State) (b : Src2) :
    (∃ v, s.src2 b = .ok v) ∨
      (∃ f, b = .reg f ∧ 8 ≤ f.toNat ∧
        s.src2 b = .error ⟨.registerIndexOutOfRange, f.setWidth 32⟩) := by
  cases b with
  | lit v => exact .inl ⟨_, rfl⟩
  | reg f =>
    rcases s.readField_cases f with ⟨i, _, h⟩ | ⟨h8, h⟩
    · exact .inl ⟨_, h⟩
    · exact .inr ⟨f, rfl, h8, h⟩

/-- An ALU instruction that answers a state has read its sources, computed, and written one register. -/
theorem State.alu_ok (s t : State) (f : Word → Word → Except Trap Word) (ra : BitVec 5) (b : Src2)
    (rd : BitVec 5) (h : s.alu f ra b rd = .ok t) :
    ∃ va vb i v, s.readField ra = .ok va ∧ s.src2 b = .ok vb ∧ regIdx rd = .ok i ∧ f va vb = .ok v ∧
      t = s.writeReg i v := by
  unfold State.alu at h
  split at h
  · cases h
  · rename_i va hva
    split at h
    · cases h
    · rename_i vb hvb
      split at h
      · cases h
      · rename_i i hi
        split at h
        · cases h
        · rename_i v hv
          injection h with h
          exact ⟨va, vb, i, v, hva, hvb, hi, hv, h.symm⟩

/-- An ALU instruction that raises does so by one of its three index checks or by its operation. -/
theorem State.alu_error (s : State) (f : Word → Word → Except Trap Word) (ra : BitVec 5) (b : Src2)
    (rd : BitVec 5) (e : Trap) (h : s.alu f ra b rd = .error e) :
    s.readField ra = .error e ∨ s.src2 b = .error e ∨ regIdx rd = .error e ∨
      ∃ va vb, f va vb = .error e := by
  unfold State.alu at h
  split at h
  · rename_i e' he
    cases h
    exact .inl he
  · rename_i va hva
    split at h
    · rename_i e' he
      cases h
      exact .inr (.inl he)
    · rename_i vb hvb
      split at h
      · rename_i e' he
        cases h
        exact .inr (.inr (.inl he))
      · split at h
        · rename_i e' he
          cases h
          exact .inr (.inr (.inr ⟨va, vb, he⟩))
        · cases h

/-- An ALU instruction whose fields and operation are in order, run. -/
theorem State.alu_of (s : State) (f : Word → Word → Except Trap Word) (ra : BitVec 5) (b : Src2)
    (rd : BitVec 5) (va vb v : Word) (i : Fin 8) (h1 : s.readField ra = .ok va)
    (h2 : s.src2 b = .ok vb) (h3 : regIdx rd = .ok i) (h4 : f va vb = .ok v) :
    s.alu f ra b rd = .ok (s.writeReg i v) := by
  simp [State.alu, h1, h2, h3, h4]

/-- A branch that answers a state has written `pc` or nothing. -/
theorem State.branch_ok (s t : State) (p : Word → Bool) (ra : BitVec 5) (addr : BitVec 22)
    (h : s.branch p ra addr = .ok t) :
    ∃ v, s.readField ra = .ok v ∧ t = if p v then s.setPc (addr.setWidth 32) else s := by
  unfold State.branch at h
  split at h
  · cases h
  · rename_i v hv
    injection h with h
    exact ⟨v, hv, h.symm⟩

/-- A branch raises only by its register's index. -/
theorem State.branch_error (s : State) (p : Word → Bool) (ra : BitVec 5) (addr : BitVec 22) (e : Trap)
    (h : s.branch p ra addr = .error e) : s.readField ra = .error e := by
  unfold State.branch at h
  split at h
  · rename_i e' he
    cases h
    exact he
  · cases h

/-- A jump that answers a state has written its link register and `pc`. -/
theorem State.jump_ok (s t : State) (tg : Target) (rd : BitVec 5) (h : s.jump tg rd = .ok t) :
    ∃ i v, regIdx rd = .ok i ∧ t = (s.writeReg i s.pc).setPc v := by
  unfold State.jump at h
  split at h
  · cases h
  · rename_i i hi
    split at h
    · injection h with h
      exact ⟨i, _, hi, h.symm⟩
    · split at h
      · cases h
      · injection h with h
        exact ⟨i, _, hi, h.symm⟩

/-- A jump raises only by one of its two index checks. -/
theorem State.jump_error (s : State) (tg : Target) (rd : BitVec 5) (e : Trap)
    (h : s.jump tg rd = .error e) : regIdx rd = .error e ∨ ∃ f, tg = .reg f ∧ regIdx f = .error e := by
  unfold State.jump at h
  split at h
  · rename_i e' he
    cases h
    exact .inl he
  · split at h
    · cases h
    · rename_i f
      split at h
      · rename_i e' he
        cases h
        exact .inr ⟨f, rfl, he⟩
      · cases h

/-- Completing an instruction answers its result state, or its fault taken at the instruction's index. -/
theorem State.complete_next_iff (s t : State) (r : Except Trap State) :
    s.complete r = .next t ↔ r = .ok t ∨ ∃ e, r = .error e ∧ t = s.raise e s.fetchAddr := by
  cases r with
  | ok u => simp [State.complete]
  | error e => simp [State.complete, eq_comm]

/-- Completing an instruction always answers a next state. -/
theorem State.complete_answers_next (s : State) (r : Except Trap State) : ∃ t, s.complete r = .next t := by
  cases r with
  | ok u => exact ⟨u, rfl⟩
  | error e => exact ⟨_, rfl⟩

/-- A shift under SHIFT_OVER = `fault` answers below 32 and raises from 32 on. -/
theorem aluShift_fault (f : Word → Nat → Word) (a b : Word) :
    aluShift .fault f a b =
      if b.toNat < 32 then .ok (f a b.toNat) else .error ⟨.shiftAmountOutOfRange, b⟩ := rfl

/-- The index of the executing instruction, seen after the fetch's increment, is the `pc` of the fetch. -/
@[simp] theorem State.fetchAddr_advancePc (s : State) : s.advancePc.fetchAddr = s.pc := by
  simp [State.fetchAddr]

end Sys2Proof.Machine
end

