-- ==== Sys2Proof/Laws/PerInstr.lean ====
section
/-! SUPPORT. The per-instruction family OpcodeField: bits 31 to 27 of an instruction's word are its opcode
(30_encoding.md R60, R80). One lemma per constructor of Instr. -/

namespace Sys2Proof.Laws.OpcodeField

/-- The top five bits of the instruction's word are its opcode. -/
def Statement (i : Instr) : Prop := (encode i).extractLsb' 27 5 = i.opcode

/-- The top five bits of a format E word. -/
theorem wordE_opcode (op ra : BitVec 5) (b : Src2) (rd : BitVec 5) : (wordE op ra b rd).extractLsb' 27 5 = op := by
  apply BitVec.eq_of_toNat_eq
  rw [toNat_slice, wordE_toNat]
  omega

/-- The top five bits of a format D word. -/
theorem wordD_opcode (op : BitVec 5) (t : Target) (rd : BitVec 5) : (wordD op t rd).extractLsb' 27 5 = op := by
  apply BitVec.eq_of_toNat_eq
  rw [toNat_slice, wordD_toNat]
  omega

/-- The top five bits of a format C word. -/
theorem wordC_opcode (op ra : BitVec 5) (addr : BitVec 22) : (wordC op ra addr).extractLsb' 27 5 = op := by
  apply BitVec.eq_of_toNat_eq
  rw [toNat_slice, wordC_toNat]
  omega

/-- The top five bits of a format B word. -/
theorem wordB_opcode (op : BitVec 5) (num : BitVec 27) : (wordB op num).extractLsb' 27 5 = op := by
  apply BitVec.eq_of_toNat_eq
  rw [toNat_slice, wordB_toNat]
  omega

theorem stop : Statement Instr.stop := wordB_opcode _ _
theorem add (ra : BitVec 5) (b : Src2) (rd : BitVec 5) : Statement (Instr.add ra b rd) := wordE_opcode _ _ _ _
theorem sub (ra : BitVec 5) (b : Src2) (rd : BitVec 5) : Statement (Instr.sub ra b rd) := wordE_opcode _ _ _ _
theorem mul (ra : BitVec 5) (b : Src2) (rd : BitVec 5) : Statement (Instr.mul ra b rd) := wordE_opcode _ _ _ _
theorem div (ra : BitVec 5) (b : Src2) (rd : BitVec 5) : Statement (Instr.div ra b rd) := wordE_opcode _ _ _ _
theorem and (ra : BitVec 5) (b : Src2) (rd : BitVec 5) : Statement (Instr.and ra b rd) := wordE_opcode _ _ _ _
theorem or (ra : BitVec 5) (b : Src2) (rd : BitVec 5) : Statement (Instr.or ra b rd) := wordE_opcode _ _ _ _
theorem xor (ra : BitVec 5) (b : Src2) (rd : BitVec 5) : Statement (Instr.xor ra b rd) := wordE_opcode _ _ _ _
theorem shl (ra : BitVec 5) (b : Src2) (rd : BitVec 5) : Statement (Instr.shl ra b rd) := wordE_opcode _ _ _ _
theorem shr (ra : BitVec 5) (b : Src2) (rd : BitVec 5) : Statement (Instr.shr ra b rd) := wordE_opcode _ _ _ _
theorem slt (ra : BitVec 5) (b : Src2) (rd : BitVec 5) : Statement (Instr.slt ra b rd) := wordE_opcode _ _ _ _
theorem sle (ra : BitVec 5) (b : Src2) (rd : BitVec 5) : Statement (Instr.sle ra b rd) := wordE_opcode _ _ _ _
theorem seq (ra : BitVec 5) (b : Src2) (rd : BitVec 5) : Statement (Instr.seq ra b rd) := wordE_opcode _ _ _ _
theorem load (ra : BitVec 5) (b : Src2) (rd : BitVec 5) : Statement (Instr.load ra b rd) := wordE_opcode _ _ _ _
theorem store (ra : BitVec 5) (b : Src2) (rd : BitVec 5) : Statement (Instr.store ra b rd) := wordE_opcode _ _ _ _
theorem jmp (t : Target) (rd : BitVec 5) : Statement (Instr.jmp t rd) := wordD_opcode _ _ _
theorem braz (ra : BitVec 5) (addr : BitVec 22) : Statement (Instr.braz ra addr) := wordC_opcode _ _ _
theorem branz (ra : BitVec 5) (addr : BitVec 22) : Statement (Instr.branz ra addr) := wordC_opcode _ _ _
theorem scall (num : BitVec 27) : Statement (Instr.scall num) := wordB_opcode _ _

end Sys2Proof.Laws.OpcodeField
end

