-- ==== Sys2Proof/Laws/Step.lean ====
section
/-! SUPPORT. What executing an instruction and what one step can do, said once: the inversion lemmas that
proofs about every instruction or every step cite instead of unfolding exec and step. -/

namespace Sys2Proof.Machine

/-- The event an instruction emits. -/
def EventOf (i : Instr) (s : State) (e : Event) : Prop :=
  (∃ ra b rd, i = .load ra b rd ∧ e = .diag .load s.fetchAddr ra b.imm b.op2 rd) ∨
    (∃ ra b rd, i = .store ra b rd ∧ e = .diag .store s.fetchAddr ra b.imm b.op2 rd) ∨
    (∃ num, i = .scall num ∧ e = .syscall s.fetchAddr num)

/-- What an instruction can raise: an index fault of an instruction that consumes register fields, a
division by zero of `div`, a shift amount of `shl` or `shr`. -/
def RaisedBy (i : Instr) (e : Trap) : Prop :=
  (e.cause = .registerIndexOutOfRange ∧ 8 ≤ e.info.toNat ∧ e.info.toNat < 2 ^ 21 ∧
      ((∃ mk ra b rd, AluForm mk ∧ i = mk ra b rd) ∨ IsTransfer i)) ∨
    (e.cause = .divisionByZero ∧ e.info = 0#32 ∧ ∃ ra b rd, i = .div ra b rd) ∨
    (e.cause = .shiftAmountOutOfRange ∧ 32 ≤ e.info.toNat ∧
      ((∃ ra b rd, i = .shl ra b rd) ∨ ∃ ra b rd, i = .shr ra b rd))

/-- An index fault carries the field's value. -/
theorem regIdx_error_info {w : Nat} (f : BitVec w) (hw : w ≤ 21) (e : Trap) (h : regIdx f = .error e) :
    e.cause = .registerIndexOutOfRange ∧ 8 ≤ e.info.toNat ∧ e.info.toNat < 2 ^ 21 := by
  obtain ⟨h8, rfl⟩ := (regIdx_error_iff f e).1 h
  have hlt : f.toNat < 2 ^ 21 := Nat.lt_of_lt_of_le f.isLt (Nat.pow_le_pow_right (by omega) hw)
  have heq : (f.setWidth 32).toNat = f.toNat := by
    rw [BitVec.toNat_setWidth, Nat.mod_eq_of_lt (by omega)]
  exact ⟨rfl, by rw [heq]; exact h8, by rw [heq]; exact hlt⟩

/-- Reading a field raises only by its index. -/
theorem State.readField_error {w : Nat} (s : State) (f : BitVec w) (e : Trap)
    (h : s.readField f = .error e) : regIdx f = .error e := by
  unfold State.readField at h
  split at h
  · cases h
  · rename_i e' he
    cases h
    exact he

/-- Reading a second operand raises only by the index of its register field. -/
theorem State.src2_error (s : State) (b : Src2) (e : Trap) (h : s.src2 b = .error e) :
    ∃ f, b = .reg f ∧ regIdx f = .error e := by
  cases b with
  | lit v => cases h
  | reg f => exact ⟨f, rfl, s.readField_error f e h⟩

/-- An ALU instruction that raises does so by an index, or as its operation does. -/
theorem State.alu_error_info (s : State) (f : Word → Word → Except Trap Word) (ra : BitVec 5) (b : Src2)
    (rd : BitVec 5) (e : Trap) (h : s.alu f ra b rd = .error e) :
    (e.cause = .registerIndexOutOfRange ∧ 8 ≤ e.info.toNat ∧ e.info.toNat < 2 ^ 21) ∨
      ∃ va vb, f va vb = .error e := by
  rcases s.alu_error f ra b rd e h with h | h | h | h
  · exact .inl (regIdx_error_info ra (by omega) e (s.readField_error ra e h))
  · obtain ⟨g, _, hg⟩ := s.src2_error b e h
    exact .inl (regIdx_error_info g (by omega) e hg)
  · exact .inl (regIdx_error_info rd (by omega) e h)
  · exact .inr h

/-- What executing an instruction can do, all of it: halt; write one register; link and jump; write `pc`
or nothing; emit one event; take a fault. -/
def ExecEffect (i : Instr) (s t : State) : Prop :=
  (i = .stop ∧ t = s.halt .stop) ∨
    (∃ rd j v, destField i = some rd ∧ ¬ IsTransfer i ∧ regIdx rd = .ok j ∧ t = s.writeReg j v) ∨
    (∃ tg rd j v, i = .jmp tg rd ∧ regIdx rd = .ok j ∧ t = (s.writeReg j s.pc).setPc v) ∨
    (∃ ra addr, (i = .braz ra addr ∨ i = .branz ra addr) ∧ (t = s ∨ t = s.setPc (addr.setWidth 32))) ∨
    (∃ e, EventOf i s e ∧ t = s.emit e) ∨
    (∃ e, RaisedBy i e ∧ t = s.raise e s.fetchAddr)

/-- The effect of an ALU instruction. -/
theorem alu_effect (mk : BitVec 5 → Src2 → BitVec 5 → Instr) (hmk : AluForm mk)
    (f : Word → Word → Except Trap Word) (ra : BitVec 5) (b : Src2) (rd : BitVec 5) (s t : State)
    (hf : ∀ va vb e, f va vb = .error e → RaisedBy (mk ra b rd) e)
    (h : s.complete (s.alu f ra b rd) = .next t) : ExecEffect (mk ra b rd) s t := by
  rcases (s.complete_next_iff t _).1 h with h | ⟨e, h, ht⟩
  · obtain ⟨va, vb, j, v, _, _, hj, _, ht⟩ := s.alu_ok t f ra b rd h
    refine .inr (.inl ⟨rd, j, v, ?_, ?_, hj, ht⟩)
    · rcases hmk with h | h | h | h | h | h | h | h | h | h | h | h <;> rw [h] <;> rfl
    · rcases hmk with h | h | h | h | h | h | h | h | h | h | h | h <;> simp [h, IsTransfer]
  · refine .inr (.inr (.inr (.inr (.inr ⟨e, ?_, ht⟩))))
    rcases s.alu_error_info f ra b rd e h with ⟨h1, h2, h3⟩ | ⟨va, vb, h⟩
    · exact .inl ⟨h1, h2, h3, .inl ⟨mk, ra, b, rd, hmk, rfl⟩⟩
    · exact hf va vb e h

/-- The effect of a branch. -/
theorem branch_effect (i : Instr) (p : Word → Bool) (ra : BitVec 5) (addr : BitVec 22) (s t : State)
    (hi : i = .braz ra addr ∨ i = .branz ra addr) (h : s.complete (s.branch p ra addr) = .next t) :
    ExecEffect i s t := by
  rcases (s.complete_next_iff t _).1 h with h | ⟨e, h, ht⟩
  · obtain ⟨v, _, ht⟩ := s.branch_ok t p ra addr h
    refine .inr (.inr (.inr (.inl ⟨ra, addr, hi, ?_⟩)))
    rw [ht]
    split
    · exact .inr rfl
    · exact .inl rfl
  · refine .inr (.inr (.inr (.inr (.inr ⟨e, .inl ?_, ht⟩))))
    obtain ⟨h1, h2, h3⟩ := regIdx_error_info ra (by omega) e
      (s.readField_error ra e (s.branch_error p ra addr e h))
    refine ⟨h1, h2, h3, .inr (.inr ?_)⟩
    rcases hi with h | h
    · exact .inl ⟨ra, addr, h⟩
    · exact .inr ⟨ra, addr, h⟩

/-- The inversion of exec: every instruction that answers a next state has one of the stated effects. -/
theorem exec_effect (i : Instr) (s t : State) (h : exec i s = .next t) : ExecEffect i s t := by
  cases i with
  | stop => exact .inl ⟨rfl, by injection h with h; exact h.symm⟩
  | add ra b rd => exact alu_effect Instr.add (by simp [AluForm]) _ ra b rd s t (fun _ _ _ h => by cases h) h
  | sub ra b rd => exact alu_effect Instr.sub (by simp [AluForm]) _ ra b rd s t (fun _ _ _ h => by cases h) h
  | mul ra b rd => exact alu_effect Instr.mul (by simp [AluForm]) _ ra b rd s t (fun _ _ _ h => by cases h) h
  | div ra b rd =>
    refine alu_effect Instr.div (by simp [AluForm]) _ ra b rd s t (fun va vb e h => ?_) h
    unfold aluDiv at h
    split at h
    · cases h
      exact .inr (.inl ⟨rfl, rfl, ra, b, rd, rfl⟩)
    · cases h
  | and ra b rd => exact alu_effect Instr.and (by simp [AluForm]) _ ra b rd s t (fun _ _ _ h => by cases h) h
  | or ra b rd => exact alu_effect Instr.or (by simp [AluForm]) _ ra b rd s t (fun _ _ _ h => by cases h) h
  | xor ra b rd => exact alu_effect Instr.xor (by simp [AluForm]) _ ra b rd s t (fun _ _ _ h => by cases h) h
  | shl ra b rd =>
    refine alu_effect Instr.shl (by simp [AluForm]) _ ra b rd s t (fun va vb e h => ?_) h
    rw [aluShl, shiftOver, aluShift_fault] at h
    split at h
    · cases h
    · cases h
      exact .inr (.inr ⟨rfl, by simpa using ‹¬ vb.toNat < 32›, .inl ⟨ra, b, rd, rfl⟩⟩)
  | shr ra b rd =>
    refine alu_effect Instr.shr (by simp [AluForm]) _ ra b rd s t (fun va vb e h => ?_) h
    rw [aluShr, shiftOver, aluShift_fault] at h
    split at h
    · cases h
    · cases h
      exact .inr (.inr ⟨rfl, by simpa using ‹¬ vb.toNat < 32›, .inr ⟨ra, b, rd, rfl⟩⟩)
  | slt ra b rd => exact alu_effect Instr.slt (by simp [AluForm]) _ ra b rd s t (fun _ _ _ h => by cases h) h
  | sle ra b rd => exact alu_effect Instr.sle (by simp [AluForm]) _ ra b rd s t (fun _ _ _ h => by cases h) h
  | seq ra b rd => exact alu_effect Instr.seq (by simp [AluForm]) _ ra b rd s t (fun _ _ _ h => by cases h) h
  | load ra b rd =>
    injection h with h
    exact .inr (.inr (.inr (.inr (.inl ⟨_, .inl ⟨ra, b, rd, rfl, rfl⟩, h.symm⟩))))
  | store ra b rd =>
    injection h with h
    exact .inr (.inr (.inr (.inr (.inl ⟨_, .inr (.inl ⟨ra, b, rd, rfl, rfl⟩), h.symm⟩))))
  | jmp tg rd =>
    rcases (s.complete_next_iff t _).1 h with h | ⟨e, h, ht⟩
    · obtain ⟨j, v, hj, ht⟩ := s.jump_ok t tg rd h
      exact .inr (.inr (.inl ⟨tg, rd, j, v, rfl, hj, ht⟩))
    · refine .inr (.inr (.inr (.inr (.inr ⟨e, .inl ?_, ht⟩))))
      rcases s.jump_error tg rd e h with h | ⟨f, _, h⟩
      · obtain ⟨h1, h2, h3⟩ := regIdx_error_info rd (by omega) e h
        exact ⟨h1, h2, h3, .inr (.inl ⟨tg, rd, rfl⟩)⟩
      · obtain ⟨h1, h2, h3⟩ := regIdx_error_info f (by omega) e h
        exact ⟨h1, h2, h3, .inr (.inl ⟨tg, rd, rfl⟩)⟩
  | braz ra addr => exact branch_effect _ _ ra addr s t (.inl rfl) h
  | branz ra addr => exact branch_effect _ _ ra addr s t (.inr rfl) h
  | scall num =>
    injection h with h
    exact .inr (.inr (.inr (.inr (.inl ⟨_, .inr (.inr ⟨num, rfl, rfl⟩), h.symm⟩))))

/-- The step of a running machine inside its program, by what the fetched word decodes to. -/
theorem step_in_range (s : State) (hr : s.run = .running) (hp : s.pc.toNat < s.progLen.toNat) :
    step s = match decodeWord (s.prog.readWord s.pc.toNat) with
      | .ok i => exec i s.advancePc
      | .error _ => .next (s.advancePc.halt .unknownOpcode) := by
  have hnot : ¬ s.progLen.toNat ≤ s.pc.toNat := by omega
  simp only [step, hr, State.cycle, State.pcOutOfRange, hnot, decide_false, Bool.false_eq_true, if_false,
    executeWord, State.fetch]
  cases decodeWord (s.prog.readWord s.pc.toNat) <;> rfl

/-- The step of a running machine at or beyond the end of its program. -/
theorem step_out_of_range (s : State) (hr : s.run = .running) (hp : s.progLen.toNat ≤ s.pc.toNat) :
    step s = .next s.raisePc := by
  simp [step, hr, State.cycle, State.pcOutOfRange, hp]

/-- The step of a machine that does not run. -/
theorem step_stopped (s : State) (hr : s.run ≠ .running) : step s = .next s := by
  unfold step
  split
  · rename_i h
    exact absurd h hr
  · rfl
  · rfl

/-- The inversion of step: a stopped machine stays; a bounds fault; an unrecognized word; or the decoded
instruction's effect on the state after the fetch. -/
theorem step_effect (s t : State) (h : step s = .next t) :
    (s.run ≠ .running ∧ t = s) ∨
      (s.run = .running ∧ s.progLen.toNat ≤ s.pc.toNat ∧ t = s.raisePc) ∨
      (s.run = .running ∧ s.pc.toNat < s.progLen.toNat ∧
        (∃ e, decodeWord (s.prog.readWord s.pc.toNat) = .error e) ∧
        t = s.advancePc.halt .unknownOpcode) ∨
      (s.run = .running ∧ s.pc.toNat < s.progLen.toNat ∧
        ∃ i, decodeWord (s.prog.readWord s.pc.toNat) = .ok i ∧ exec i s.advancePc = .next t ∧
          ExecEffect i s.advancePc t) := by
  by_cases hr : s.run = .running
  · by_cases hp : s.pc.toNat < s.progLen.toNat
    · rw [step_in_range s hr hp] at h
      split at h
      · rename_i i hi
        exact .inr (.inr (.inr ⟨hr, hp, i, hi, h, exec_effect i _ t h⟩))
      · rename_i e he
        injection h with h
        exact .inr (.inr (.inl ⟨hr, hp, ⟨e, he⟩, h.symm⟩))
    · rw [step_out_of_range s hr (by omega)] at h
      injection h with h
      exact .inr (.inl ⟨hr, by omega, h.symm⟩)
  · rw [step_stopped s hr] at h
    injection h with h
    exact .inl ⟨hr, h.symm⟩

/-- The increment of the fetch does not wrap inside a program (10_state.md R25). -/
theorem advancePc_toNat (s : State) (hp : s.pc.toNat < s.progLen.toNat) :
    (s.pc + 1#32).toNat = s.pc.toNat + 1 := by
  have := s.progLen.isLt
  rw [BitVec.toNat_add]
  exact Nat.mod_eq_of_lt (by simp only [BitVec.toNat_ofNat]; omega)

end Sys2Proof.Machine
end

