-- ==== Sys2Proof/Laws/Run.lean ====
section
/-! SUPPORT. Runs: the host's run of this machine, and a run as its first steps and one more. -/

namespace Sys2Proof.Machine

/-- One more step at the start of a run. -/
theorem runSteps_succ (k : Nat) (s t : State) (h : step s = .next t) :
    runSteps (k + 1) s = runSteps k t := by
  simp only [runSteps, h]

/-- One more step at the end of a run. -/
theorem runSteps_add_one (k : Nat) (s t : State) (h : runSteps k s = .next t) :
    runSteps (k + 1) s = step t := by
  induction k generalizing s with
  | zero =>
    cases h
    simp only [runSteps]
    split <;> simp_all
  | succ k ih =>
    simp only [runSteps] at h
    split at h
    · rename_i u hu
      rw [runSteps_succ (k + 1) s u hu]
      exact ih u h
    · cases h
    · cases h

/-- The run of the claims is the host's run of this machine. -/
theorem runSteps_eq_core_run (k : Nat) (s : State) : runSteps k s = Sys2Proof.core.run k s := by
  induction k generalizing s with
  | zero => rfl
  | succ k ih =>
    refine Eq.trans ?_ (Host.Core.run.eq_2 Sys2Proof.core s k).symm
    cases h : step s with
    | next t =>
      have h' : Sys2Proof.core.step s = .next t := h
      rw [runSteps_succ k s t h, h', ih t]
    | fault r => cases r
    | refused r =>
      have h' : Sys2Proof.core.step s = .refused r := h
      rw [h']
      simp only [runSteps, h]
      rfl

end Sys2Proof.Machine
end

