-- ==== Sys2Proof/Tests/Slice0.lean ====
section
/-! SUPPORT. The model's own tests. Words, start states and expected results are those of
95_test_vectors.md (its section is named beside each group); nothing here is the model's own answer. The
last part shows, for every statement with hypotheses, values that meet them. -/

namespace Sys2Proof.Tests

open Sys2Proof.Machine

/-! ## Well-formedness: one ill-formed term for each check -/

theorem test_wf_refuses_ra : (Instr.add 8#5 (.lit 0#16) 0#5).check = some .raOutOfRange := by decide
theorem test_wf_refuses_op2 : (Instr.add 7#5 (.reg 8#16) 0#5).check = some .op2OutOfRange := by decide
theorem test_wf_refuses_tgt : (Instr.jmp (.reg 8#21) 0#5).check = some .tgtOutOfRange := by decide
theorem test_wf_refuses_rd : (Instr.jmp (.direct 8#21) 8#5).check = some .rdOutOfRange := by decide
theorem test_wf_refuses_branch_ra : (Instr.braz 31#5 0#22).check = some .raOutOfRange := by decide
theorem test_wf_accepts_wide_literal : (Instr.add 7#5 (.lit 65535#16) 7#5).wellFormed = true := by decide

/-! ## Decoding (95_test_vectors.md 2.1, 2.2, 2.4) -/

theorem test_decode_stop : decodeWord 0x00000000#32 = .ok .stop := by decide
theorem test_decode_stop_low_bits : decodeWord 0x07FFFFFF#32 = .ok .stop := by decide
theorem test_decode_add : decodeWord 0x08600063#32 = .ok (.add 1#5 (.lit 3#16) 3#5) := by decide
theorem test_decode_sub : decodeWord 0x10200020#32 = .ok (.sub 0#5 (.lit 1#16) 0#5) := by decide
theorem test_decode_mul : decodeWord 0x18400022#32 = .ok (.mul 1#5 (.reg 1#16) 2#5) := by decide
theorem test_decode_div : decodeWord 0x20400043#32 = .ok (.div 1#5 (.reg 2#16) 3#5) := by decide
theorem test_decode_and : decodeWord 0x28400043#32 = .ok (.and 1#5 (.reg 2#16) 3#5) := by decide
theorem test_decode_or : decodeWord 0x30400043#32 = .ok (.or 1#5 (.reg 2#16) 3#5) := by decide
theorem test_decode_xor : decodeWord 0x39FFFFE7#32 = .ok (.xor 7#5 (.lit 65535#16) 7#5) := by decide
theorem test_decode_shl : decodeWord 0x40A003E2#32 = .ok (.shl 2#5 (.lit 31#16) 2#5) := by decide
theorem test_decode_shr : decodeWord 0x48600383#32 = .ok (.shr 1#5 (.lit 28#16) 3#5) := by decide
theorem test_decode_slt : decodeWord 0x50C00025#32 = .ok (.slt 3#5 (.reg 1#16) 5#5) := by decide
theorem test_decode_sle : decodeWord 0x58400043#32 = .ok (.sle 1#5 (.reg 2#16) 3#5) := by decide
theorem test_decode_seq : decodeWord 0x60400043#32 = .ok (.seq 1#5 (.reg 2#16) 3#5) := by decide
theorem test_decode_load : decodeWord 0x68600082#32 = .ok (.load 1#5 (.lit 4#16) 2#5) := by decide
theorem test_decode_store : decodeWord 0x70400082#32 = .ok (.store 1#5 (.reg 4#16) 2#5) := by decide
theorem test_decode_jmp_direct :
    decodeWord 0x7FFFFFE7#32 = .ok (.jmp (.direct 2097151#21) 7#5) := by decide
theorem test_decode_jmp_reg : decodeWord 0x780000C0#32 = .ok (.jmp (.reg 6#21) 0#5) := by decide
theorem test_decode_braz : decodeWord 0x80400003#32 = .ok (.braz 1#5 3#22) := by decide
theorem test_decode_branz : decodeWord 0x89FFFFFF#32 = .ok (.branz 7#5 4194303#22) := by decide
theorem test_decode_scall : decodeWord 0x9000002A#32 = .ok (.scall 42#27) := by decide
theorem test_decode_first_unrecognized :
    decodeWord 0x98000000#32 = .error (.unknownOpcode 19#5) := by decide
theorem test_decode_all_fields_maximal :
    decodeFields 0xFFFFFFFF#32 =
      ⟨31#5, 134217727#27, 31#5, 4194303#22, 1#1, 2097151#21, 31#5, 1#1, 65535#16⟩ := by decide
theorem test_decode_fields_of_a_pattern :
    decodeFields 0xA5A5A5A5#32 =
      ⟨20#5, 94741925#27, 22#5, 2467237#22, 1#1, 863533#21, 5#5, 1#1, 11565#16⟩ := by decide
theorem test_table_word : decodeTableWord 32 0x10200020 = some (.sub 0#5 (.lit 1#16) 0#5) := by decide
theorem test_truncated_stream :
    decodeBytes .little [0#8, 0#8, 0#8] = .error .truncated := by decide

/-! ## Encoding (95_test_vectors.md 2.2, 2.3) -/

theorem test_encode_add :
    encoder 1#5 [.register 7#32, .value 65535#32, .register 7#32] = .ok 0x09FFFFE7#32 := by decide
theorem test_encode_jmp :
    encoder 15#5 [.value 2097151#32, .register 7#32] = .ok 0x7FFFFFE7#32 := by decide
theorem test_encode_branz :
    encoder 17#5 [.register 7#32, .value 4194303#32] = .ok 0x89FFFFFF#32 := by decide
theorem test_encode_count_before_kind :
    encoder 1#5 [.value 70000#32, .register 9#32] = .error .badOperandCount := by decide
theorem test_encode_kind_before_register :
    encoder 1#5 [.value 70000#32, .register 9#32, .register 3#32] = .error .operandKindMismatch := by
  decide
theorem test_encode_register_before_field :
    encoder 1#5 [.register 9#32, .value 70000#32, .register 3#32] = .error .invalidRegister := by decide
theorem test_encode_field_overflow :
    encoder 1#5 [.register 1#32, .value 65536#32, .register 3#32] = .error .fieldOverflow := by decide
theorem test_encode_bad_opcode : encoder 19#5 [.register 9#32] = .error .badOpcode := by decide

/-! ## The assembly front end (95_test_vectors.md E3, E8, Part 3 P1) -/

/-- The source of program P1. -/
def p1Source : Assembler.Text :=
  "loop:\n  braz r1,end\n  add r1,1,r1\n  jmp loop,r7\nend:\n  stop\n".toList

/-- The words of program P1. -/
def p1Words : List Word := [0x80400003#32, 0x08600021#32, 0x7C000007#32, 0x00000000#32]

theorem test_assemble_p1 : Assembler.assemble p1Source = .ok p1Words := by rfl
theorem test_assemble_unknown_mnemonic :
    Assembler.assemble "add r1,1,r1\nnop\nstop".toList = .error .unknownMnemonic := by rfl
theorem test_assemble_hash_is_no_immediate :
    Assembler.assemble "add r1,#3,r3".toList = .error .invalidImmediate := by rfl
theorem test_advisory : Assembler.noStopAdvisory [0x08200020#32] = true := by decide

/-! ## One step (95_test_vectors.md 2.4 to 2.9) -/

/-- A register file that holds the listed values and 0 elsewhere. -/
def regs (l : List (Fin 8 × Word)) : RegFile :=
  l.foldl (fun r p => r.set p.1 p.2) State.reset.x

/-- The start of a one-cycle vector: reset, these registers, the word at index 0 of a one-word program. -/
def start (l : List (Fin 8 × Word)) (w : Nat) : State :=
  ({ State.reset with x := regs l }).withFetchWord 32 w

/-- The step answers a next state with this property. -/
def stepHas (s : State) (p : State → Bool) : Bool :=
  match step s with
  | .next t => p t
  | .fault _ => false
  | .refused _ => false

/-- The step leaves the machine running with the second list's registers, this pc and these events. -/
def runs (l : List (Fin 8 × Word)) (w : Nat) (l' : List (Fin 8 × Word)) (pc : Nat)
    (es : List Event) : Bool :=
  stepHas (start l w) fun t =>
    decide (t.run = .running ∧ t.x = regs l' ∧ t.pc = BitVec.ofNat 32 pc ∧ t.events = es)

/-- The step halts with this cause, the registers kept and pc 1. -/
def halts (l : List (Fin 8 × Word)) (w : Nat) (c : HaltCause) : Bool :=
  stepHas (start l w) fun t => decide (t.run = .halted ∧ t.haltCause = c ∧ t.x = regs l ∧ t.pc = 1#32)

/-- The step faults with this record, the registers kept and pc 1. -/
def faults (l : List (Fin 8 × Word)) (w : Nat) (c : FaultCause) (info : Nat) : Bool :=
  stepHas (start l w) fun t =>
    decide (t.run = .faulted ∧ t.faultCause = c ∧ t.faultInfo = BitVec.ofNat 32 info ∧
      t.faultAddr = 0#32 ∧ t.x = regs l ∧ t.pc = 1#32)

theorem test_stop : halts [(1, 5)] 0x00000000 .stop = true := by rfl
theorem test_unknown_opcode : halts [(1, 5)] 0x98000000 .unknownOpcode = true := by rfl
theorem test_unknown_opcode_last : halts [] 0xFFFFFFFF .unknownOpcode = true := by rfl
theorem test_add_wraps :
    runs [(1, 0xFFFFFFFF), (2, 1), (3, 7)] 0x08400043 [(1, 0xFFFFFFFF), (2, 1)] 1 [] = true := by rfl
theorem test_add_literal_zero_extends :
    runs [(1, 1)] 0x087FFFE2 [(1, 1), (2, 0x00010000)] 1 [] = true := by rfl
theorem test_sub_minuend :
    runs [(1, 5), (2, 3)] 0x10400043 [(1, 5), (2, 3), (3, 2)] 1 [] = true := by rfl
theorem test_sub_wraps : runs [] 0x10200020 [(0, 0xFFFFFFFF)] 1 [] = true := by rfl
theorem test_mul_low_half :
    runs [(1, 0xFFFFFFFF)] 0x18400022 [(1, 0xFFFFFFFF), (2, 1)] 1 [] = true := by rfl
theorem test_mul_literal :
    runs [(1, 0x00010001)] 0x187FFFE2 [(1, 0x00010001), (2, 0xFFFFFFFF)] 1 [] = true := by rfl
theorem test_div_unsigned :
    runs [(1, 0xFFFFFFFF)] 0x20600146 [(1, 0xFFFFFFFF), (6, 0x19999999)] 1 [] = true := by rfl
theorem test_div_by_zero : faults [(1, 7), (3, 9)] 0x20400043 .divisionByZero 0 = true := by rfl
theorem test_and_literal :
    runs [(1, 0xDEADBEEF)] 0x287FFFE2 [(1, 0xDEADBEEF), (2, 0xBEEF)] 1 [] = true := by rfl
theorem test_or :
    runs [(1, 0xFFFF00FF), (2, 0x0F0F0F0F)] 0x30400043
      [(1, 0xFFFF00FF), (2, 0x0F0F0F0F), (3, 0xFFFF0FFF)] 1 [] = true := by rfl
theorem test_xor :
    runs [(1, 0xFFFFFFFF)] 0x387FFFE7 [(1, 0xFFFFFFFF), (7, 0xFFFF0000)] 1 [] = true := by rfl
theorem test_shl_by_31 : runs [(2, 3)] 0x40A003E2 [(2, 0x80000000)] 1 [] = true := by rfl
theorem test_shl_by_256_faults :
    faults [(1, 1), (2, 0x100), (3, 9)] 0x40400043 .shiftAmountOutOfRange 256 = true := by rfl
theorem test_shr_is_logical :
    runs [(1, 0x80000000)] 0x486003E2 [(1, 0x80000000), (2, 1)] 1 [] = true := by rfl
theorem test_shr_by_32_faults :
    faults [(1, 0xFFFFFFFF), (2, 9)] 0x48600402 .shiftAmountOutOfRange 32 = true := by rfl
theorem test_slt_is_unsigned :
    runs [(1, 0xFFFFFFFF), (3, 7)] 0x50400043 [(1, 0xFFFFFFFF)] 1 [] = true := by rfl
theorem test_slt_destination_is_source :
    runs [(1, 3), (2, 5)] 0x50400041 [(1, 1), (2, 5)] 1 [] = true := by rfl
theorem test_sle_equal :
    runs [(1, 7), (2, 7)] 0x58400043 [(1, 7), (2, 7), (3, 1)] 1 [] = true := by rfl
theorem test_sle_is_unsigned :
    runs [(1, 0x80000000), (2, 0x7FFFFFFF), (3, 7)] 0x58400043
      [(1, 0x80000000), (2, 0x7FFFFFFF)] 1 [] = true := by rfl
theorem test_seq_equal :
    runs [(1, 9), (2, 9)] 0x60400043 [(1, 9), (2, 9), (3, 1)] 1 [] = true := by rfl
theorem test_seq_literal_not_sign_extended :
    runs [(1, 0xFFFFFFFF), (3, 7)] 0x607FFFE3 [(1, 0xFFFFFFFF)] 1 [] = true := by rfl
theorem test_load :
    runs [(1, 0x100), (2, 9)] 0x68600082 [(1, 0x100), (2, 9)] 1
      [.diag .load 0#32 1#5 1#1 4#16 2#5] = true := by rfl
theorem test_load_checks_no_field :
    runs [] 0x6FDFFFFF [] 1 [.diag .load 0#32 31#5 0#1 65535#16 31#5] = true := by rfl
theorem test_store :
    runs [] 0x71FFFFE7 [] 1 [.diag .store 0#32 7#5 1#1 65535#16 7#5] = true := by rfl
theorem test_store_checks_no_field :
    runs [] 0x72000008 [] 1 [.diag .store 0#32 8#5 0#1 0#16 8#5] = true := by rfl
theorem test_scall : runs [(1, 5)] 0x97FFFFFF [(1, 5)] 1 [.syscall 0#32 134217727#27] = true := by rfl
theorem test_jmp_direct : runs [(7, 9)] 0x7C0000A7 [(7, 1)] 5 [] = true := by rfl
theorem test_jmp_link_before_read : runs [(1, 2)] 0x78000021 [(1, 1)] 1 [] = true := by rfl
theorem test_braz_taken : runs [] 0x80400003 [] 3 [] = true := by rfl
theorem test_braz_tests_all_bits : runs [(1, 0x80000000)] 0x80400003 [(1, 0x80000000)] 1 [] = true := by
  rfl
theorem test_branz_taken : runs [(7, 0xFFFFFFFF)] 0x89FFFFFF [(7, 0xFFFFFFFF)] 4194303 [] = true := by
  rfl
theorem test_branz_not_taken : runs [] 0x88400003 [] 1 [] = true := by rfl
theorem test_fault_order_ra_first : faults [] 0x0A40014B .registerIndexOutOfRange 9 = true := by rfl
theorem test_fault_order_op2_before_rd :
    faults [] 0x0840014B .registerIndexOutOfRange 10 = true := by rfl
theorem test_fault_whole_op2_field : faults [] 0x08500022 .registerIndexOutOfRange 32769 = true := by rfl
theorem test_fault_rd_before_zero_divisor :
    faults [(1, 7)] 0x20400048 .registerIndexOutOfRange 8 = true := by rfl
theorem test_fault_rd_before_shift_amount :
    faults [] 0x4060050C .registerIndexOutOfRange 12 = true := by rfl
theorem test_jmp_rd_before_tgt : faults [] 0x78000129 .registerIndexOutOfRange 9 = true := by rfl
theorem test_jmp_whole_tgt_field : faults [] 0x7A000021 .registerIndexOutOfRange 1048577 = true := by rfl
theorem test_braz_index_fault : faults [] 0x82000003 .registerIndexOutOfRange 8 = true := by rfl
theorem test_branz_index_fault : faults [] 0x8FC00003 .registerIndexOutOfRange 31 = true := by rfl

/-- 95_test_vectors.md 2.9: PROG_LEN = 0 faults before any fetch. -/
theorem test_empty_program_faults :
    stepHas State.reset (fun t => decide (t.run = .faulted ∧
      t.faultCause = .programCounterOutOfRange ∧ t.faultInfo = 0#32 ∧ t.pc = 0#32)) = true := by rfl

/-! ## Values that meet the hypotheses of the statements -/

/-- Registers that the witnesses use: x1 = 7, x2 = 3, x4 = 31, x5 = 32. -/
def sample : State :=
  { State.reset with x := regs [(1, 7), (2, 3), (4, 31), (5, 32)], pc := 1#32, progLen := 1#32 }

theorem witness_dispatch_opcode_18 : (0x97FFFFFF#32).toNat / 2 ^ 27 ≤ 18 := by decide
theorem witness_dispatch_opcode_19 : 19 ≤ (0x98000000#32).toNat / 2 ^ 27 := by decide

/-- IgnoredBitsChangeNothing: two different words of opcode 0 meet all five premises, a word below 2^27,
and two words of opcodes 15 and 18. -/
theorem witness_ignored_bits :
    (decodeFields 0x00000000#32).opc = (decodeFields 0x07FFFFFF#32).opc ∧
      (decodeFields 0x07FFFFFF#32).opc.toNat = 0 ∧ (0x07FFFFFF#32).toNat < 2 ^ 27 := by decide
theorem witness_no_unused_bit :
    15 ≤ (decodeFields 0x78000000#32).opc.toNat ∧ (decodeFields 0x97FFFFFF#32).opc.toNat ≤ 18 ∧
      decodeWord 0x97FFFFFF#32 = decodeWord 0x97FFFFFF#32 := by decide

/-- EncoderFollowsItsChecksAndPacking and EncoderOutputDecodesToItsOperands: each clause. -/
theorem witness_encoder_bad_opcode : 19 ≤ (19#5).toNat := by decide
theorem witness_encoder_bad_count :
    (18#5).toNat ≤ 18 ∧ ([] : List Operand).length ≠
      (if (18#5).toNat = 0 then 0 else if (18#5).toNat ≤ 14 then 3
        else if (18#5).toNat ≤ 17 then 2 else 1) := by decide
theorem witness_encoder_format_c : (16#5 = 16#5 ∨ 16#5 = 17#5) ∧ (17#5 = 16#5 ∨ 17#5 = 17#5) := by decide
theorem witness_encoder_format_e :
    (1 ≤ (1#5).toNat ∧ (1#5).toNat ≤ 14) ∧ 1 ≤ (14#5).toNat ∧ (14#5).toNat ≤ 14 := by decide
theorem witness_encoder_answers_format_a : encoder 0#5 [] = .ok 0#32 := by decide
theorem witness_encoder_answers_format_b : encoder 18#5 [.value 134217727#32] = .ok 0x97FFFFFF#32 := by
  decide
theorem witness_encoder_answers_format_c :
    encoder 16#5 [.register 1#32, .value 3#32] = .ok 0x80400003#32 := by decide
theorem witness_encoder_answers_format_d :
    encoder 15#5 [.register 6#32, .register 0#32] = .ok 0x780000C0#32 := by decide
theorem witness_encoder_answers_format_e :
    encoder 14#5 [.register 1#32, .register 4#32, .register 2#32] = .ok 0x70400082#32 := by decide

/-- EncodedWordsRaiseNoIndexFault. -/
theorem witness_encoded_word_in_a_state :
    encoder 1#5 [.register 7#32, .register 7#32, .register 7#32] = .ok 0x09C000E7#32 ∧
      sample.faultCause ≠ .registerIndexOutOfRange := by decide

/-- AssemblyYieldsOneWordPerInstructionLine. -/
theorem witness_assembly : ∃ ws, Assembler.assemble p1Source = .ok ws := ⟨p1Words, by rfl⟩

/-- LabelsBindTheNextInstructionIndex: the label before every instruction and the one defined after use. -/
theorem witness_labels :
    ∃ ls, Assembler.collectLabels [] 0 ["l:".toList, "stop".toList, "e:".toList] = .ok ls ∧
      Assembler.labelOf "l:".toList = some "l".toList ∧
      Assembler.labelOf "e:".toList = some "e".toList ∧
      ["l:".toList, "stop".toList, "e:".toList] = ["l:".toList, "stop".toList] ++ "e:".toList :: [] :=
  ⟨_, by rfl, by decide, by decide, by rfl⟩

/-- LoadedProgramReadsBack, BootedMachineFetchesWordZero, BootEstablishesTheInvariant. -/
theorem witness_load : ∃ t, sample.loadProgram p1Words = some t ∧ 3 < p1Words.length :=
  ⟨_, by rfl, by decide⟩
theorem witness_boot : ∃ t, sample.boot (0x80400003#32 :: [0x00000000#32]) = some t := ⟨_, by rfl⟩

/-- NoStepWritesTheProgram, EveryStepAnswersANextState's use, StepAppendsAtMostOneEvent: a step that
emits. -/
theorem witness_step_emits : ∃ t, step (start [] 0x68600082) = .next t ∧ t.events ≠ [] :=
  ⟨_, by rfl, by decide⟩

/-- StepRunsTheDecodedInstruction, at the program's last word. -/
theorem witness_step_runs :
    (start [] 0x08600063).run = .running ∧
      (start [] 0x08600063).pc.toNat < (start [] 0x08600063).progLen.toNat ∧
      (start [] 0x08600063).progLen = 1#32 ∧
      decodeWord ((start [] 0x08600063).prog.readWord (start [] 0x08600063).pc.toNat) =
        .ok (.add 1#5 (.lit 3#16) 3#5) := by decide

/-- PcOutOfRangeFaultsBeforeTheFetch, at pc = PROG_LEN. -/
theorem witness_pc_out_of_range :
    sample.run = .running ∧ sample.progLen.toNat ≤ sample.pc.toNat ∧ sample.pc = sample.progLen := by
  decide

/-- StoppedMachineNeverMoves: each terminal state. -/
theorem witness_stopped :
    ({ sample with run := .halted }).run ≠ .running ∧ ({ sample with run := .faulted }).run ≠ .running := by
  decide

/-- UnrecognizedOpcodeHalts, at the lowest unrecognized word; and an accepted word for the second
clause. -/
theorem witness_unrecognized :
    (start [] 0x98000000).run = .running ∧
      (start [] 0x98000000).pc.toNat < (start [] 0x98000000).progLen.toNat ∧
      0x98000000 ≤ ((start [] 0x98000000).prog.readWord (start [] 0x98000000).pc.toNat).toNat := by decide

/-- FaultsArePrecise and RunEndsOnlyInTheStatedWays: a running state for each end. -/
theorem witness_fault_at_a_word :
    (start [(1, 7)] 0x20400043).run = .running ∧
      ∃ t, step (start [(1, 7)] 0x20400043) = .next t ∧ t.run = .faulted ∧
        t.faultCause = .divisionByZero := ⟨by rfl, _, by rfl, by rfl, by rfl⟩
theorem witness_fault_of_pc :
    sample.run = .running ∧ ∃ t, step sample = .next t ∧ t.run = .faulted ∧
      t.faultCause = .programCounterOutOfRange := ⟨by rfl, _, by rfl, by rfl, by rfl⟩
theorem witness_end_by_stop :
    (start [] 0).run = .running ∧ ∃ t, step (start [] 0) = .next t ∧ t.run = .halted :=
  ⟨by rfl, _, by rfl, by rfl⟩
theorem witness_fault_of_index :
    (start [] 0x8FC00003).run = .running ∧ ∃ t, step (start [] 0x8FC00003) = .next t ∧
      t.run = .faulted ∧ t.faultCause ≠ .programCounterOutOfRange := ⟨by rfl, _, by rfl, by rfl, by decide⟩

/-- The statements of the twelve ALU results: a register operand and the largest literal; the divisor is
not zero and the amount is below 32, at 31. -/
theorem witness_alu_register :
    (1#5).toNat = (1 : Fin 8).val ∧ SrcValue sample (.reg 2#16) 3#32 ∧ (7#5).toNat = (7 : Fin 8).val ∧
      (3#32 : Word) ≠ 0#32 := ⟨by rfl, ⟨2, by rfl, by rfl⟩, by rfl, by decide⟩
theorem witness_alu_literal :
    (7#5).toNat = (7 : Fin 8).val ∧ SrcValue sample (.lit 65535#16) 65535#32 ∧
      (0#5).toNat = (0 : Fin 8).val := ⟨by rfl, by rfl, by rfl⟩
theorem witness_shift_by_31 :
    (1#5).toNat = (1 : Fin 8).val ∧ SrcValue sample (.reg 4#16) 31#32 ∧ (3#5).toNat = (3 : Fin 8).val ∧
      (31#32).toNat < 32 := ⟨by rfl, ⟨4, by rfl, by rfl⟩, by rfl, by decide⟩
/-- EncodedAsE, for opcodes 1 and 14. -/
theorem witness_format_e_words :
    (0x08400043#32).toNat / 2 ^ 27 = 1 ∧ (0x77FFFFFF#32).toNat / 2 ^ 27 = 14 := by decide

/-- DivByZeroFaults: a zero register, a zero literal, and an instruction that takes the fault. -/
theorem witness_div_by_zero_register :
    (1#5).toNat = (1 : Fin 8).val ∧ SrcValue sample (.reg 0#16) 0#32 ∧ (3#5).toNat = (3 : Fin 8).val :=
  ⟨by rfl, ⟨0, by rfl, by rfl⟩, by rfl⟩
theorem witness_div_by_zero_literal : SrcValue sample (.lit 0#16) 0#32 := by rfl
theorem witness_division_fault_taken :
    ∃ t, exec (.div 1#5 (.lit 0#16) 2#5) sample = .next t ∧ sample.faultCause ≠ .divisionByZero ∧
      t.faultCause = .divisionByZero := ⟨_, by rfl, by decide, by rfl⟩

/-- ShiftsBy32OrMoreFault, at 32. -/
theorem witness_shift_by_32 :
    ((Instr.shl = Instr.shl ∨ Instr.shl = Instr.shr) ∧ (1#5).toNat = (1 : Fin 8).val) ∧
      SrcValue sample (.reg 5#16) 32#32 ∧ (3#5).toNat = (3 : Fin 8).val ∧ 32 ≤ (32#32).toNat :=
  ⟨⟨.inl rfl, by rfl⟩, ⟨5, by rfl, by rfl⟩, by rfl, by decide⟩

/-- AluIndexFaultsInOrder: ra of 8 and of 31; ra of 7 with op2 of 8; ra of 7, an operand and rd of 8. -/
theorem witness_alu_index_ra : AluForm Instr.add ∧ 8 ≤ (8#5).toNat ∧ 8 ≤ (31#5).toNat :=
  ⟨.inl rfl, by decide, by decide⟩
theorem witness_alu_index_op2 :
    (7#5).toNat < 8 ∧ Src2.reg 8#16 = .reg 8#16 ∧ 8 ≤ (8#16).toNat := by decide
theorem witness_alu_index_rd :
    (7#5).toNat < 8 ∧ SrcValue sample (.reg 7#16) 0#32 ∧ 8 ≤ (8#5).toNat :=
  ⟨by decide, ⟨7, by rfl, by rfl⟩, by decide⟩

/-- JmpIndexFaultsInOrder and BranchIndexFaults. -/
theorem witness_jmp_index_rd : 8 ≤ (8#5).toNat ∧ 8 ≤ (31#5).toNat := by decide
theorem witness_jmp_index_tgt :
    (7#5).toNat < 8 ∧ Target.reg 8#21 = .reg 8#21 ∧ 8 ≤ (8#21).toNat := by decide
theorem witness_branch_index : 8 ≤ (8#5).toNat := by decide

/-- JmpDirectLinksAndJumps, JmpThroughRegisterReadsAfterTheLink (two registers and one), and the two
branches (a register that is zero, x0, and one that is not, x1). -/
theorem witness_jmp_direct : (7#5).toNat = (7 : Fin 8).val := by decide
theorem witness_jmp_register :
    ((6#21).toNat = (6 : Fin 8).val ∧ (0#5).toNat = (0 : Fin 8).val) ∧
      (1#21).toNat = (1 : Fin 8).val ∧ (1#5).toNat = (1 : Fin 8).val := by decide
theorem witness_branch :
    ((0#5).toNat = (0 : Fin 8).val ∧ sample.readReg 0 = 0#32) ∧
      (1#5).toNat = (1 : Fin 8).val ∧ sample.readReg 1 ≠ 0#32 := by decide

/-- OnlyTransfersWritePc. -/
theorem witness_no_transfer : ¬ IsTransfer (.scall 5#27) := by
  rintro (⟨t, rd, h⟩ | ⟨ra, a, h⟩ | ⟨ra, a, h⟩) <;> cases h

/-- OnlyTheDestinationRegisterChanges: another register than the destination, and no destination. -/
theorem witness_other_register :
    (∃ t, exec (.add 1#5 (.lit 1#16) 3#5) sample = .next t) ∧
      ∀ f, destField (.add 1#5 (.lit 1#16) 3#5) = some f → f.toNat ≠ (2 : Fin 8).val := by
  refine ⟨⟨_, rfl⟩, fun f h => ?_⟩
  cases h
  decide
theorem witness_no_destination :
    (∃ t, exec (.braz 1#5 3#22) sample = .next t) ∧
      ∀ f, destField (.braz 1#5 3#22) = some f → f.toNat ≠ (1 : Fin 8).val :=
  ⟨⟨_, rfl⟩, fun _ h => by cases h⟩

/-- A program of load, div by a zero register and an unrecognized word; after its load. -/
def traced : State :=
  { State.reset with
    pc := 1#32
    events := [.diag .load 0#32 1#5 1#1 4#16 2#5]
    prog := Memory.writeWords [] 0 [0x68600082#32, 0x20400043#32, 0x98000000#32]
    progLen := 3#32 }

/-- EveryStepKeepsTheInvariant: a running state with an event, from which the step takes a fault. -/
theorem witness_inv_running :
    traced.Inv ∧ ∃ t, step traced = .next t ∧ t.run = .faulted :=
  ⟨{ storeWf := by rfl
     storeWithin := by rfl
     running := fun _ => ⟨rfl, rfl, rfl, rfl⟩
     halted := fun h => by cases h
     faulted := fun h => by cases h
     trace := fun e he => by
      cases List.mem_singleton.mp he
      exact ⟨by decide, .lit 4#16, by rfl, by rfl, by rfl⟩ }, _, by rfl, by rfl⟩

/-- EveryStepKeepsTheInvariant: a halted state, by the unrecognized word. -/
theorem witness_inv_halted :
    ({ traced with run := .halted, haltCause := .unknownOpcode, pc := 3#32, events := [] }).Inv :=
  { storeWf := by rfl
    storeWithin := by rfl
    running := fun h => by cases h
    halted := fun _ => by unfold HaltRecordOk NoFaultRecord; decide
    faulted := fun h => by cases h
    trace := fun e he => by cases he }

/-- StraightLineProgramHaltsOnTime: load, then an unrecognized word; m = 1 of PROG_LEN = 2. -/
def straight : State :=
  { State.reset with
    prog := Memory.writeWords [] 0 [0x68600082#32, 0x98000000#32]
    progLen := 2#32 }

theorem witness_straight_line :
    straight.run = .running ∧ straight.pc = 0#32 ∧ 1 < straight.progLen.toNat ∧
      (∀ a, a < 1 →
        ∃ i, decodeWord (straight.prog.readWord a) = .ok i ∧ ¬ IsTransfer i ∧ i ≠ .stop) ∧
      (∃ e, decodeWord (straight.prog.readWord 1) = .error e) ∧
      ∀ k t, k ≤ 1 + 1 → runSteps k straight = .next t → t.run ≠ .faulted := by
  refine ⟨rfl, rfl, by decide, fun a h => ?_, ⟨_, rfl⟩, fun k t hk h => ?_⟩
  · cases Nat.lt_one_iff.mp h
    refine ⟨.load 1#5 (.lit 4#16) 2#5, rfl, ?_, by decide⟩
    rintro (⟨t, rd, h⟩ | ⟨ra, a, h⟩ | ⟨ra, a, h⟩) <;> cases h
  · match k, hk with
    | 0, _ => cases h; decide
    | 1, _ => cases h; decide
    | 2, _ => cases h; decide

/-- StraightLineProgramHaltsOnTime: the word at m is stop, m = 0 = PROG_LEN - 1. -/
theorem witness_straight_line_stop :
    (start [] 0).run = .running ∧ (start [] 0).pc = 0#32 ∧ 0 < (start [] 0).progLen.toNat ∧
      decodeWord ((start [] 0).prog.readWord 0) = .ok .stop ∧
      ∀ k t, k ≤ 0 + 1 → runSteps k (start [] 0) = .next t → t.run ≠ .faulted := by
  refine ⟨rfl, rfl, by decide, rfl, fun k t hk h => ?_⟩
  match k, hk with
  | 0, _ => cases h; decide
  | 1, _ => cases h; decide

end Sys2Proof.Tests
end

section
/-! The registers, the program counter and the status after reset (10_state.md R32). -/

namespace Sys2Proof.Machine

/-- The reset state is a fixed point of the reset input, so what holds after reset in any state
holds of it. -/
@[simp] theorem State.applyReset_reset : State.reset.applyReset = State.reset := rfl

/-- After the reset input the registers, `pc` and `run` hold the values of 10_state.md R32. -/
theorem State.applyReset_zeroes (s : State) :
    (∀ j : Fin 8, s.applyReset.readReg j = 0#32) ∧ s.applyReset.pc = 0#32 ∧
      s.applyReset.run = .running :=
  ⟨s.readReg_applyReset, s.applyReset_pc, s.applyReset_run⟩

/-- Settles O50: the reset state is the case of `applyReset_zeroes` at its own fixed point. -/
theorem resetZeroesTheMachine : Obligations.ResetZeroesTheMachine := by
  unfold Obligations.ResetZeroesTheMachine
  obtain ⟨hregs, hpc, hrun⟩ := State.applyReset_zeroes State.reset
  rw [State.applyReset_reset] at hregs hpc hrun
  exact ⟨hregs, hpc, hrun, State.applyReset_zeroes⟩

end Sys2Proof.Machine
end

section
/-! Dispatch by the opcode field (30_encoding.md R80, R81): which words decode, and what executing a word
does on either side of opcode 19. -/

namespace Sys2Proof

/-- The defined opcodes are 0 to 18 (00_scope.md R1). -/
theorem Instr.opcode_toNat_le (i : Instr) : i.opcode.toNat ≤ 18 := by
  cases i <;> simp [Instr.opcode]

/-- An opcode of 0 to 18 decodes; with `decodeWord_ok_opcode`, to an instruction of that opcode. -/
theorem decodeWord_ok_of_opcode_le (w : Word) (h : w.toNat / 2 ^ 27 ≤ 18) :
    ∃ i, decodeWord w = .ok i := by
  cases hd : decodeWord w with
  | ok i => exact ⟨i, rfl⟩
  | error e =>
    have hge := decodeWord_error_opcode w e hd
    omega

/-- An opcode of 19 to 31 does not decode (30_encoding.md R89). -/
theorem decodeWord_error_of_opcode_ge (w : Word) (h : 19 ≤ w.toNat / 2 ^ 27) :
    ∃ e, decodeWord w = .error e := by
  cases hd : decodeWord w with
  | ok i =>
    have hop := decodeWord_ok_opcode w i hd
    have hle := i.opcode_toNat_le
    omega
  | error e => exact ⟨e, rfl⟩

namespace Machine

/-- A word that decodes executes as its instruction. -/
theorem executeWord_of_ok {w : Word} {i : Instr} (h : decodeWord w = .ok i) (s : State) :
    executeWord w s = exec i s := by
  simp only [executeWord, h]

/-- A word that does not decode halts the machine (41_stop.md R131). -/
theorem executeWord_of_error {w : Word} {e : DecodeReject} (h : decodeWord w = .error e) (s : State) :
    executeWord w s = .next (s.halt .unknownOpcode) := by
  simp only [executeWord, h, execUnknownOpcode]

/-- An opcode of 19 to 31 halts the machine, whatever the other bits are. -/
theorem executeWord_of_opcode_ge {w : Word} (h : 19 ≤ w.toNat / 2 ^ 27) (s : State) :
    executeWord w s = .next (s.halt .unknownOpcode) := by
  obtain ⟨e, he⟩ := decodeWord_error_of_opcode_ge w h
  exact executeWord_of_error he s

/-- Halting writes `run` and the halt cause and nothing else (40_cycle.md R119). -/
theorem State.haltsWith_halt (s : State) (c : HaltCause) : HaltsWith s (s.halt c) c :=
  ⟨s.halt_run c, s.halt_haltCause c, s.halt_faultCause c, s.halt_faultInfo c, s.halt_faultAddr c,
    s.readReg_halt c, s.halt_pc c, s.halt_events c, fun _ => rfl, s.halt_prog c, s.halt_progLen c⟩

/-- Settles O3: the decoder accepts exactly the opcodes up to 18, and dispatch is the decoder's answer. -/
theorem dispatchIsTotalByOpcode : Obligations.DispatchIsTotalByOpcode := by
  intro w
  constructor
  · intro hle
    obtain ⟨i, hi⟩ := decodeWord_ok_of_opcode_le w hle
    exact ⟨i, hi, decodeWord_ok_opcode w i hi, executeWord_of_ok hi⟩
  · intro hge s
    exact ⟨_, executeWord_of_opcode_ge hge s, s.haltsWith_halt .unknownOpcode⟩

end Machine
end Sys2Proof
end

section
/-! Consumed and ignored bits (30_encoding.md R82, R88). Formats B to E use all 32 bits, so a word is
rebuilt from its opcode and the fields of any one of these formats; only `stop`, and the opcodes that are
no instruction, leave bits unused. -/

namespace Sys2Proof

/-- Reading a second operand's form and flagging it again gives the imm-flag back. -/
@[simp] theorem Decoded.imm_src2 (d : Decoded) : d.src2.imm = d.imm := by
  unfold Decoded.src2
  split
  · next h => exact h.symm
  · next h => exact ((BitVec.eq_zero_or_eq_one d.imm).resolve_right h).symm

@[simp] theorem Decoded.op2_src2 (d : Decoded) : d.src2.op2 = d.op2 := by
  unfold Decoded.src2
  split <;> rfl

/-- Reading a jump target's form and flagging it again gives the imm-flag back. -/
@[simp] theorem Decoded.immj_target (d : Decoded) : d.target.immj = d.immj := by
  unfold Decoded.target
  split
  · next h => exact h.symm
  · next h => exact ((BitVec.eq_zero_or_eq_one d.immj).resolve_right h).symm

@[simp] theorem Decoded.tgt_target (d : Decoded) : d.target.tgt = d.tgt := by
  unfold Decoded.target
  split <;> rfl

/-! ### A word rebuilt from the fields of a format -/

theorem wordB_decodeFields (w : Word) : wordB (decodeFields w).opc (decodeFields w).num = w := by
  apply BitVec.eq_of_toNat_eq
  rw [wordB_toNat]
  simp only [decodeFields, toNat_slice]
  omega

theorem wordC_decodeFields (w : Word) :
    wordC (decodeFields w).opc (decodeFields w).ra (decodeFields w).addr = w := by
  apply BitVec.eq_of_toNat_eq
  rw [wordC_toNat]
  simp only [decodeFields, toNat_slice]
  omega

theorem wordD_decodeFields (w : Word) :
    wordD (decodeFields w).opc (decodeFields w).target (decodeFields w).rd = w := by
  apply BitVec.eq_of_toNat_eq
  rw [wordD_toNat, Decoded.immj_target, Decoded.tgt_target]
  simp only [decodeFields, toNat_slice]
  omega

theorem wordE_decodeFields (w : Word) :
    wordE (decodeFields w).opc (decodeFields w).ra (decodeFields w).src2 (decodeFields w).rd = w := by
  apply BitVec.eq_of_toNat_eq
  rw [wordE_toNat, Decoded.imm_src2, Decoded.op2_src2]
  simp only [decodeFields, toNat_slice]
  omega

/-! ### Two words that agree on the fields of a format -/

section
variable {w w' : Word} (hopc : (decodeFields w).opc = (decodeFields w').opc)
include hopc

theorem eq_of_formatB_fields (hnum : (decodeFields w).num = (decodeFields w').num) : w = w' := by
  rw [← wordB_decodeFields w, hopc, hnum, wordB_decodeFields]

theorem eq_of_formatC_fields (hra : (decodeFields w).ra = (decodeFields w').ra)
    (haddr : (decodeFields w).addr = (decodeFields w').addr) : w = w' := by
  rw [← wordC_decodeFields w, hopc, hra, haddr, wordC_decodeFields]

theorem eq_of_formatD_fields (himmj : (decodeFields w).immj = (decodeFields w').immj)
    (htgt : (decodeFields w).tgt = (decodeFields w').tgt)
    (hrd : (decodeFields w).rd = (decodeFields w').rd) : w = w' := by
  have htarget : (decodeFields w).target = (decodeFields w').target := by
    simp only [Decoded.target, himmj, htgt]
  rw [← wordD_decodeFields w, hopc, htarget, hrd, wordD_decodeFields]

theorem eq_of_formatE_fields (hra : (decodeFields w).ra = (decodeFields w').ra)
    (himm : (decodeFields w).imm = (decodeFields w').imm)
    (hop2 : (decodeFields w).op2 = (decodeFields w').op2)
    (hrd : (decodeFields w).rd = (decodeFields w').rd) : w = w' := by
  have hsrc2 : (decodeFields w).src2 = (decodeFields w').src2 := by
    simp only [Decoded.src2, himm, hop2]
  rw [← wordE_decodeFields w, hopc, hra, hsrc2, hrd, wordE_decodeFields]

end

/-! ### What the decoder answers at the opcodes outside format E (30_encoding.md R80) -/

section
variable {d : Decoded}

theorem Decoded.instr_stop (h : d.opc = 0#5) : d.instr = .ok .stop := by
  simp [Decoded.instr, h]

theorem Decoded.instr_jmp (h : d.opc = 15#5) : d.instr = .ok (.jmp d.target d.rd) := by
  simp [Decoded.instr, h]

theorem Decoded.instr_braz (h : d.opc = 16#5) : d.instr = .ok (.braz d.ra d.addr) := by
  simp [Decoded.instr, h]

theorem Decoded.instr_branz (h : d.opc = 17#5) : d.instr = .ok (.branz d.ra d.addr) := by
  simp [Decoded.instr, h]

theorem Decoded.instr_scall (h : d.opc = 18#5) : d.instr = .ok (.scall d.num) := by
  simp [Decoded.instr, h]

end

/-- Every word below 2^27 has opcode 0 and is `stop` (41_stop.md R130 corner case a). -/
theorem decodeWord_of_lt (w : Word) (h : w.toNat < 2 ^ 27) : decodeWord w = .ok .stop := by
  apply Decoded.instr_stop
  apply BitVec.eq_of_toNat_eq
  rw [decodeFields_opc_toNat, Nat.div_eq_of_lt h]
  rfl

/-- A word that decodes to an instruction of opcode 15 to 18 is that instruction's encoding: no bit of
it is unused. -/
theorem encode_eq_of_decodeWord_ok {w : Word} {i : Instr} (hi : decodeWord w = .ok i)
    (h15 : 15 ≤ i.opcode.toNat) : encode i = w := by
  have hop : (decodeFields w).opc = i.opcode :=
    BitVec.eq_of_toNat_eq ((decodeFields_opc_toNat w).trans (decodeWord_ok_opcode w i hi).symm)
  have hle := i.opcode_toNat_le
  have hcases : (decodeFields w).opc = 15#5 ∨ (decodeFields w).opc = 16#5 ∨
      (decodeFields w).opc = 17#5 ∨ (decodeFields w).opc = 18#5 := by
    bv_omega
  rcases hcases with h | h | h | h
  · obtain rfl := Except.ok.inj (hi.symm.trans (Decoded.instr_jmp h))
    rw [encode, ← hop, wordD_decodeFields]
  · obtain rfl := Except.ok.inj (hi.symm.trans (Decoded.instr_braz h))
    rw [encode, ← hop, wordC_decodeFields]
  · obtain rfl := Except.ok.inj (hi.symm.trans (Decoded.instr_branz h))
    rw [encode, ← hop, wordC_decodeFields]
  · obtain rfl := Except.ok.inj (hi.symm.trans (Decoded.instr_scall h))
    rw [encode, ← hop, wordB_decodeFields]

namespace Machine

/-- Two words of opcode 0 are both `stop`, and two of opcode 19 to 31 both halt; at every other opcode
agreement on the consumed fields makes the words equal. -/
theorem executeWord_congr {w w' : Word} (hopc : (decodeFields w).opc = (decodeFields w').opc)
    (hB : (decodeFields w).opc.toNat = 18 → (decodeFields w).num = (decodeFields w').num)
    (hC : (decodeFields w).opc.toNat = 16 ∨ (decodeFields w).opc.toNat = 17 →
      (decodeFields w).ra = (decodeFields w').ra ∧ (decodeFields w).addr = (decodeFields w').addr)
    (hD : (decodeFields w).opc.toNat = 15 →
      (decodeFields w).immj = (decodeFields w').immj ∧
        (decodeFields w).tgt = (decodeFields w').tgt ∧ (decodeFields w).rd = (decodeFields w').rd)
    (hE : 1 ≤ (decodeFields w).opc.toNat ∧ (decodeFields w).opc.toNat ≤ 14 →
      (decodeFields w).ra = (decodeFields w').ra ∧ (decodeFields w).imm = (decodeFields w').imm ∧
        (decodeFields w).op2 = (decodeFields w').op2 ∧ (decodeFields w).rd = (decodeFields w').rd)
    (s : State) : executeWord w s = executeWord w' s := by
  have hcases : (decodeFields w).opc.toNat = 0 ∨
      (1 ≤ (decodeFields w).opc.toNat ∧ (decodeFields w).opc.toNat ≤ 14) ∨
      (decodeFields w).opc.toNat = 15 ∨
      ((decodeFields w).opc.toNat = 16 ∨ (decodeFields w).opc.toNat = 17) ∨
      (decodeFields w).opc.toNat = 18 ∨ 19 ≤ (decodeFields w).opc.toNat := by
    omega
  rcases hcases with h0 | h | h | h | h | h19
  · have hzero : (decodeFields w).opc = 0#5 := BitVec.eq_of_toNat_eq h0
    have hw : decodeWord w = .ok .stop := Decoded.instr_stop hzero
    have hw' : decodeWord w' = .ok .stop := Decoded.instr_stop (hopc ▸ hzero)
    rw [executeWord_of_ok hw, executeWord_of_ok hw']
  · obtain ⟨hra, himm, hop2, hrd⟩ := hE h
    rw [eq_of_formatE_fields hopc hra himm hop2 hrd]
  · obtain ⟨himmj, htgt, hrd⟩ := hD h
    rw [eq_of_formatD_fields hopc himmj htgt hrd]
  · obtain ⟨hra, haddr⟩ := hC h
    rw [eq_of_formatC_fields hopc hra haddr]
  · rw [eq_of_formatB_fields hopc (hB h)]
  · have hw : 19 ≤ w.toNat / 2 ^ 27 := decodeFields_opc_toNat w ▸ h19
    have hw' : 19 ≤ w'.toNat / 2 ^ 27 := by rwa [← decodeFields_opc_toNat, ← hopc]
    rw [executeWord_of_opcode_ge hw, executeWord_of_opcode_ge hw']

/-- Settles O6: agreement on the consumed fields by `executeWord_congr`; two words of opcode 15 to 18 that
decode alike are the encoding of one instruction. -/
theorem ignoredBitsChangeNothing : Obligations.IgnoredBitsChangeNothing := by
  refine ⟨fun _ _ => executeWord_congr, decodeWord_of_lt, ?_⟩
  intro w w' h15 h18 hdecode
  rw [decodeFields_opc_toNat] at h15 h18
  obtain ⟨i, hi⟩ := decodeWord_ok_of_opcode_le w h18
  rw [← decodeWord_ok_opcode w i hi] at h15
  calc w = encode i := (encode_eq_of_decodeWord_ok hi h15).symm
    _ = w' := encode_eq_of_decodeWord_ok (hdecode ▸ hi) h15

end Machine
end Sys2Proof
end

section
/-! The cycle (40_cycle.md R110 to R122): what a step answers for each kind of word, the bounds fault, and
the straight-line run, in which every cycle goes to the next word until one halts the machine. -/

namespace Sys2Proof.Machine

/-! ### The program stays -/

/-- Equal stores read alike, so the store and its length are all there is to compare. -/
theorem SameProgram.of_eq {s t : State} (hprog : t.prog = s.prog) (hlen : t.progLen = s.progLen) :
    SameProgram s t :=
  ⟨fun _ => by rw [hprog], hprog, hlen⟩

theorem SameProgram.refl (s : State) : SameProgram s s := .of_eq rfl rfl

theorem SameProgram.trans {s t u : State} (hst : SameProgram s t) (htu : SameProgram t u) :
    SameProgram s u := by
  obtain ⟨-, hprog, hlen⟩ := hst
  obtain ⟨-, hprog', hlen'⟩ := htu
  exact .of_eq (hprog'.trans hprog) (hlen'.trans hlen)

/-! ### The bounds fault -/

/-- Settles O17: the step is `raisePc`, which writes the run state and the fault record only. -/
theorem pcOutOfRangeFaultsBeforeTheFetch : Obligations.PcOutOfRangeFaultsBeforeTheFetch := by
  intro s hrun hpc
  exact ⟨s.raisePc, step_out_of_range s hrun hpc, s.raise_run _ _, s.raise_faultCause _ _,
    s.raise_faultInfo _ _, s.raise_faultAddr _ _, s.raise_pc _ _, s.readReg_raise _ _,
    s.raise_haltCause _ _, s.raise_events _ _, .of_eq (s.raise_prog _ _) (s.raise_progLen _ _)⟩

/-! ### One instruction -/

/-- `stop` halts and does nothing else (41_stop.md R130). -/
theorem exec_stop (s : State) : exec .stop s = .next (s.halt .stop) := rfl

/-- Every instruction answers a next state: the ALU instructions and the transfers complete
with a result or a fault, and the others cannot fault. -/
theorem exec_answers_next (i : Instr) (s : State) : ∃ t, exec i s = .next t := by
  cases i with
  | stop | load | store | scall => exact ⟨_, rfl⟩
  | _ => exact s.complete_answers_next _

/-- An instruction that neither halts nor transfers control, and does not fault, leaves `run`, `pc` and
the program as they are. -/
theorem exec_keeps_control {i : Instr} {s t : State} (h : exec i s = .next t) (hstop : i ≠ .stop)
    (htransfer : ¬ IsTransfer i) (hfault : t.run ≠ .faulted) :
    t.run = s.run ∧ t.pc = s.pc ∧ SameProgram s t := by
  rcases exec_effect i s t h with ⟨hi, -⟩ | ⟨_, _, _, -, -, -, rfl⟩ | ⟨tg, rd, _, _, hi, -, -⟩ |
    ⟨ra, addr, hi, -⟩ | ⟨_, -, rfl⟩ | ⟨_, -, rfl⟩
  · exact absurd hi hstop
  · exact ⟨rfl, rfl, .of_eq rfl rfl⟩
  · exact absurd (.inl ⟨tg, rd, hi⟩) htransfer
  · exact absurd (.inr (hi.imp (⟨ra, addr, ·⟩) (⟨ra, addr, ·⟩))) htransfer
  · exact ⟨rfl, rfl, .of_eq rfl rfl⟩
  · exact absurd (s.raise_run _ _) hfault

/-! ### One step, by what the word at `pc` decodes to -/

section
variable {s : State} (hrun : s.run = .running) (hpc : s.pc.toNat < s.progLen.toNat)
include hrun hpc

/-- A word that decodes runs as its instruction (40_cycle.md R110). -/
theorem step_of_decode_ok {i : Instr} (hi : decodeWord (s.prog.readWord s.pc.toNat) = .ok i) :
    step s = exec i s.advancePc := by
  rw [step_in_range s hrun hpc, hi]

/-- A word that does not decode halts the machine (41_stop.md R131). -/
theorem step_of_decode_error {e : DecodeReject}
    (he : decodeWord (s.prog.readWord s.pc.toNat) = .error e) :
    step s = .next (s.advancePc.halt .unknownOpcode) := by
  rw [step_in_range s hrun hpc, he]

/-- At a word that is `stop` or no instruction the step halts, with the cause of that word. -/
theorem step_halts_at_end
    (hend : decodeWord (s.prog.readWord s.pc.toNat) = .ok .stop ∨
      ∃ e, decodeWord (s.prog.readWord s.pc.toNat) = .error e) :
    ∃ c, step s = .next (s.advancePc.halt c) ∧
      (decodeWord (s.prog.readWord s.pc.toNat) = .ok .stop → c = .stop) ∧
      ((∃ e, decodeWord (s.prog.readWord s.pc.toNat) = .error e) → c = .unknownOpcode) := by
  rcases hend with hstop | ⟨e, he⟩
  · exact ⟨.stop, step_of_decode_ok hrun hpc hstop, fun _ => rfl,
      fun ⟨_, he⟩ => nomatch hstop.symm.trans he⟩
  · exact ⟨.unknownOpcode, step_of_decode_error hrun hpc he,
      fun hstop => (nomatch hstop.symm.trans he), fun _ => rfl⟩

end

/-! ### The straight-line run -/

/-- A word that the machine runs and then goes on to the next one, unless it faults. -/
def StraightWord (w : Word) : Prop := ∃ i, decodeWord w = .ok i ∧ ¬ IsTransfer i ∧ i ≠ .stop

/-- The machine runs the program of `s` and is about to fetch the word at index `k`. -/
structure RunsAt (s : State) (k : Nat) (t : State) : Prop where
  running : t.run = .running
  pc : t.pc.toNat = k
  program : SameProgram s t

/-- One cycle of a straight-line run goes to the next index, unless it faults. -/
theorem RunsAt.next {s t : State} {k : Nat} (h : RunsAt s k t) (hk : k < s.progLen.toNat)
    (hw : StraightWord (s.prog.readWord k)) :
    ∃ u, step t = .next u ∧ (u.run ≠ .faulted → RunsAt s (k + 1) u) := by
  obtain ⟨hrun, rfl, hprogram⟩ := h
  have ⟨_, hprog, hlen⟩ := hprogram
  rw [← hlen] at hk
  rw [← hprog] at hw
  obtain ⟨i, hi, htransfer, hstop⟩ := hw
  obtain ⟨u, hu⟩ := exec_answers_next i t.advancePc
  refine ⟨u, (step_of_decode_ok hrun hk hi).trans hu, fun hfault => ?_⟩
  obtain ⟨hrun', hpc', hprogram'⟩ := exec_keeps_control hu hstop htransfer hfault
  exact ⟨hrun'.trans hrun, by rw [hpc', State.advancePc_pc, advancePc_toNat t hk],
    .trans hprogram hprogram'⟩

/-- After `k` cycles without a fault a straight-line run is at index `k` (40_cycle.md R122). -/
theorem runSteps_straight_line {s : State} {m : Nat} (hrun : s.run = .running) (hpc : s.pc = 0#32)
    (hm : m ≤ s.progLen.toNat) (hwords : ∀ a, a < m → StraightWord (s.prog.readWord a))
    (hfault : ∀ k t, k ≤ m → runSteps k s = .next t → t.run ≠ .faulted) (k : Nat) (hk : k ≤ m) :
    ∃ t, runSteps k s = .next t ∧ RunsAt s k t := by
  induction k with
  | zero => exact ⟨s, rfl, hrun, by rw [hpc]; rfl, .refl s⟩
  | succ k ih =>
    obtain ⟨t, ht, hat⟩ := ih (by omega)
    obtain ⟨u, hu, hnext⟩ := hat.next (by omega) (hwords k (by omega))
    have hruns : runSteps (k + 1) s = .next u := (runSteps_add_one k s t ht).trans hu
    exact ⟨u, hruns, hnext (hfault (k + 1) u hk hruns)⟩

/-- Settles O58: `m` cycles of straight-line run, then one that halts at the word at `m`. -/
theorem straightLineProgramHaltsOnTime : Obligations.StraightLineProgramHaltsOnTime := by
  intro s m hrun hpc hm hwords hend hfault
  have hline := runSteps_straight_line hrun hpc hm.le hwords (fun k t hk => hfault k t (by omega))
  constructor
  · intro k hk
    obtain ⟨t, ht, hat⟩ := hline k hk
    exact ⟨t, ht, hat.running, hat.pc⟩
  · obtain ⟨t, ht, hrun', rfl, -, hprog, hlen⟩ := hline m le_rfl
    rw [← hlen] at hm
    rw [← hprog] at hend ⊢
    obtain ⟨c, hstep, hstop, hunknown⟩ := step_halts_at_end hrun' hm hend
    exact ⟨t.advancePc.halt c, (runSteps_add_one _ s t ht).trans hstep, t.advancePc.halt_run c,
      advancePc_toNat t hm, fun h => ⟨t.advancePc.halt_run c, hstop h⟩, hunknown⟩

end Sys2Proof.Machine
end

section
/-! Unrecognized opcodes (41_stop.md R131): the halt at a word of `0x98000000` or more, and why the
encoder answers no such word: it accepts opcodes 0 to 18 only, and every field it packs below the opcode
stays below bit 27 (30_encoding.md R94 checks 1, 4 and 5). -/

namespace Sys2Proof

/-! ### What the encoder accepts -/

/-- The opcodes that select a layout are the defined ones (30_encoding.md R93). -/
theorem toNat_le_of_layoutOf_eq_some {op : BitVec 5} {l : Layout} (h : layoutOf op = some l) :
    op.toNat ≤ 18 := by
  unfold layoutOf at h
  split at h
  case h_6 =>
    obtain ⟨hlt, -⟩ := Option.ite_none_right_eq_some.mp h
    omega
  all_goals omega

/-- The encoder answers a word exactly where its five checks pass, and then the packed one
(30_encoding.md R94, R95). -/
theorem encoder_eq_ok_iff {op : BitVec 5} {ops : List Operand} {w : Word} :
    encoder op ops = .ok w ↔ ∃ l, layoutOf op = some l ∧ ops.length = l.count ∧
      kindsOk l ops = true ∧ ops.all Operand.regOk = true ∧ fieldsFit l ops = true ∧
      pack op l ops = w := by
  cases hl : layoutOf op with
  | none => simp [encoder, hl]
  | some l =>
    simp only [encoder, hl, Option.some.injEq, exists_eq_left']
    split_ifs <;> simp_all

/-- A register operand that passes check 4 fits in three bits. -/
theorem Operand.val_lt_of_isReg {o : Operand} (hkind : o.isReg = true) (hreg : o.regOk = true) :
    o.val.toNat < 2 ^ 3 := by
  rw [regOk, hkind, Bool.not_true, Bool.false_or] at hreg
  exact of_decide_eq_true hreg

/-- An operand of either kind that passes checks 4 and 5 fits its field. -/
theorem Operand.val_lt_of_fits {o : Operand} {width : Nat} (hwidth : 3 ≤ width)
    (hreg : o.regOk = true) (hfits : o.fits width = true) : o.val.toNat < 2 ^ width := by
  cases hkind : o.isReg with
  | true => exact (val_lt_of_isReg hkind hreg).trans_le (Nat.pow_le_pow_right two_pos hwidth)
  | false => simpa [fits, hkind] using hfits

theorem Operand.immFlag_lt (o : Operand) : o.immFlag.toNat < 2 ^ 1 := by
  cases o with
  | register _ => exact Nat.zero_lt_two
  | value _ => exact Nat.one_lt_two

/-! ### What the packing puts into bits 31 to 27 -/

/-- A field packed with all its bits below bit 27 leaves the opcode field as it is. -/
theorem opc_or_of_lt (w : Word) {f : Word} {width n : Nat} (hf : f.toNat < 2 ^ width)
    (hwidth : width + n ≤ 27) : (decodeFields (w ||| f <<< n)).opc = (decodeFields w).opc := by
  have hshift : (f <<< n).toNat < 2 ^ 27 := calc
    (f <<< n).toNat ≤ f.toNat * 2 ^ n := by
      rw [BitVec.toNat_shiftLeft, Nat.shiftLeft_eq]
      exact Nat.mod_le _ _
    _ < 2 ^ width * 2 ^ n := Nat.mul_lt_mul_of_pos_right hf (Nat.two_pow_pos n)
    _ ≤ 2 ^ 27 := by
      rw [← Nat.pow_add]
      exact Nat.pow_le_pow_right two_pos hwidth
  apply BitVec.eq_of_toNat_eq
  rw [decodeFields_opc_toNat, decodeFields_opc_toNat, BitVec.toNat_or, Nat.or_div_two_pow,
    Nat.div_eq_of_lt hshift, Nat.or_zero]

/-- `opc_or_of_lt` for the lowest field, which is packed without a shift. -/
theorem opc_or_of_lt_unshifted (w : Word) {f : Word} {width : Nat} (hf : f.toNat < 2 ^ width)
    (hwidth : width ≤ 27) : (decodeFields (w ||| f)).opc = (decodeFields w).opc := by
  simpa using opc_or_of_lt w (n := 0) hf hwidth

/-- The opcode alone, shifted to its place. -/
theorem opc_shifted (op : BitVec 5) : (decodeFields (op.setWidth 32 <<< 27)).opc = op := by
  have hlt := op.isLt
  apply BitVec.eq_of_toNat_eq
  rw [decodeFields_opc_toNat, BitVec.toNat_shiftLeft, Nat.shiftLeft_eq, BitVec.toNat_setWidth]
  omega

/-- Operands that pass checks 3 to 5 leave the opcode field of the packed word to the opcode. -/
theorem opc_pack {op : BitVec 5} {l : Layout} {ops : List Operand} (hkinds : kindsOk l ops = true)
    (hregs : ops.all Operand.regOk = true) (hfits : fieldsFit l ops = true) :
    (decodeFields (pack op l ops)).opc = op := by
  unfold kindsOk at hkinds
  split at hkinds <;>
    simp only [List.all_cons, List.all_nil, Bool.and_true, Bool.and_eq_true, fieldsFit, pack]
      at hkinds hregs hfits ⊢
  case h_1 => exact opc_shifted op
  case h_2 o1 =>
    rw [opc_or_of_lt_unshifted _ (Operand.val_lt_of_fits (by decide) hregs hfits) (by decide),
      opc_shifted]
  case h_3 o1 o2 =>
    obtain ⟨hr1, hr2⟩ := hregs
    obtain ⟨hk1, -⟩ := hkinds
    rw [opc_or_of_lt_unshifted _ (Operand.val_lt_of_fits (by decide) hr2 hfits) (by decide),
      opc_or_of_lt _ (Operand.val_lt_of_isReg hk1 hr1) (by decide), opc_shifted]
  case h_4 o1 o2 =>
    obtain ⟨hr1, hr2⟩ := hregs
    rw [opc_or_of_lt_unshifted _ (Operand.val_lt_of_isReg hkinds hr2) (by decide),
      opc_or_of_lt _ (Operand.val_lt_of_fits (by decide) hr1 hfits) (by decide),
      opc_or_of_lt _ o1.immFlag_lt (by decide), opc_shifted]
  case h_5 o1 o2 o3 =>
    obtain ⟨hr1, hr2, hr3⟩ := hregs
    obtain ⟨hk1, hk3⟩ := hkinds
    rw [opc_or_of_lt_unshifted _ (Operand.val_lt_of_isReg hk3 hr3) (by decide),
      opc_or_of_lt _ (Operand.val_lt_of_fits (by decide) hr2 hfits) (by decide),
      opc_or_of_lt _ o2.immFlag_lt (by decide),
      opc_or_of_lt _ (Operand.val_lt_of_isReg hk1 hr1) (by decide), opc_shifted]
  case h_6 => exact absurd hkinds Bool.false_ne_true

/-- A word the encoder answers has the opcode it was given, which is a defined one. -/
theorem opc_of_encoder_ok {op : BitVec 5} {ops : List Operand} {w : Word}
    (h : encoder op ops = .ok w) : (decodeFields w).opc = op ∧ op.toNat ≤ 18 := by
  obtain ⟨l, hlayout, -, hkinds, hregs, hfits, rfl⟩ := encoder_eq_ok_iff.mp h
  exact ⟨opc_pack hkinds hregs hfits, toNat_le_of_layoutOf_eq_some hlayout⟩

/-- The encoder produces no word of an unrecognized opcode (41_stop.md R131). -/
theorem toNat_lt_of_encoder_ok {op : BitVec 5} {ops : List Operand} {w : Word}
    (h : encoder op ops = .ok w) : w.toNat < 0x98000000 := by
  obtain ⟨hopc, hle⟩ := opc_of_encoder_ok h
  rw [← hopc, decodeFields_opc_toNat] at hle
  omega

namespace Machine

/-- Settles O19: `0x98000000` is opcode 19 with all other bits 0, so the fetched word does not decode and
the step halts after the increment of `pc`; the encoder's words all have opcodes of 18 or less. -/
theorem unrecognizedOpcodeHalts : Obligations.UnrecognizedOpcodeHalts := by
  refine ⟨fun s hrun hpc hword => ?_, fun _ _ _ => toNat_lt_of_encoder_ok⟩
  obtain ⟨e, he⟩ := decodeWord_error_of_opcode_ge (s.prog.readWord s.pc.toNat) (by omega)
  exact ⟨_, step_of_decode_error hrun hpc he, s.advancePc.haltsWith_halt .unknownOpcode⟩

end Machine
end Sys2Proof
end

section
/-! Arithmetic and logic (42_arith_logic.md), on the common shape of opcodes 1 to 12: the format E words
(30_encoding.md R65), the one register such an instruction writes (40_cycle.md R117), and `add`. -/

namespace Sys2Proof

/-! ### Format E words -/

/-- Bit 21 of a word selects the form of its second operand (30_encoding.md R65, R85). -/
theorem decodeFields_src2 (w : Word) :
    (decodeFields w).src2 =
      if w.getLsbD 21 then .lit (w.extractLsb' 5 16) else .reg (w.extractLsb' 5 16) := by
  have hbit : (decodeFields w).imm = BitVec.ofBool (w.getLsbD 21) := by
    ext k hk
    obtain rfl : k = 0 := by omega
    simp [decodeFields]
  unfold Decoded.src2
  rw [hbit]
  cases w.getLsbD 21 <;> rfl

namespace Machine

/-- An opcode whose row of the opcode map is the format E instruction `mk` gives `mk` of the word's
fields. -/
theorem encodedAsE_of_instr {opc : Nat} {mk : BitVec 5 → Src2 → BitVec 5 → Instr}
    (hrow : ∀ d : Decoded, d.opc.toNat = opc → d.instr = .ok (mk d.ra d.src2 d.rd)) :
    EncodedAsE opc mk := by
  intro w hopc
  rw [decodeWord, hrow _ ((decodeFields_opc_toNat w).trans hopc), decodeFields_src2]
  rfl

/-! ### The register an ALU instruction writes -/

/-- A second operand that has a value reads as that value; a literal is zero-extended
(40_cycle.md R116). -/
theorem State.src2_of_srcValue {s : State} {b : Src2} {v : Word} (h : SrcValue s b v) :
    s.src2 b = .ok v := by
  cases b with
  | lit f =>
    have hv : f.setWidth 32 = v := BitVec.eq_of_toNat_eq <| calc
      (f.setWidth 32).toNat = f.toNat := BitVec.toNat_setWidth_of_le (by decide)
      _ = v.toNat := h.symm
    exact congrArg Except.ok hv
  | reg f =>
    obtain ⟨i, hf, rfl⟩ := h
    exact s.readField_of_eq f i hf

/-- Writing a register writes that register and nothing else (10_state.md R21). -/
theorem State.writesReg_writeReg (s : State) (i : Fin 8) (v : Word) :
    WritesReg s (s.writeReg i v) i v :=
  ⟨s.readReg_writeReg_same i v, fun j hj => s.readReg_writeReg_other i j v hj, s.writeReg_pc i v,
    ⟨s.writeReg_run i v, s.writeReg_haltCause i v, s.writeReg_faultCause i v, s.writeReg_faultInfo i v,
      s.writeReg_faultAddr i v⟩,
    s.writeReg_events i v, .of_eq (s.writeReg_prog i v) (s.writeReg_progLen i v)⟩

/-- An ALU instruction whose operands have values and whose operation answers `v` writes `v` to its
destination and nothing else (40_cycle.md R117). -/
theorem State.complete_alu_writesReg {s : State} {f : Word → Word → Except Trap Word} {ra rd : BitVec 5}
    {b : Src2} {i j : Fin 8} {vb v : Word} (hra : ra.toNat = i.val) (hb : SrcValue s b vb)
    (hrd : rd.toNat = j.val) (hf : f (s.readReg i) vb = .ok v) :
    ∃ t, s.complete (s.alu f ra b rd) = .next t ∧ WritesReg s t j v := by
  have halu : s.alu f ra b rd = .ok (s.writeReg j v) :=
    s.alu_of f ra b rd _ vb v j (s.readField_of_eq ra i hra) (src2_of_srcValue hb)
      ((regIdx_ok_iff rd j).mpr hrd) hf
  exact ⟨_, (s.complete_next_iff _ _).mpr (.inl halu), s.writesReg_writeReg j v⟩

/-! ### `add` -/

theorem exec_add (ra : BitVec 5) (b : Src2) (rd : BitVec 5) (s : State) :
    exec (.add ra b rd) s = s.complete (s.alu aluAdd ra b rd) := rfl

theorem encodedAsE_add : EncodedAsE 1 Instr.add :=
  encodedAsE_of_instr fun d h => by simp only [Decoded.instr, h]

/-- Settles O23: `add` has the ALU shape with an operation that never faults, and the sum of two words is
the sum of their values modulo 2^32. -/
theorem addWritesTheSumModulo : Obligations.AddWritesTheSumModulo := by
  refine ⟨encodedAsE_add, fun s ra b rd i j vb hra hb hrd => ?_⟩
  obtain ⟨t, hnext, hwrites⟩ := State.complete_alu_writesReg (f := aluAdd) hra hb hrd rfl
  exact ⟨t, s.readReg i + vb, (exec_add ra b rd s).trans hnext, hwrites, BitVec.toNat_add _ _⟩

end Machine
end Sys2Proof
end

section
/-! The comparison for equality (43_compare.md): the word of a comparison, and `seq`. -/

namespace Sys2Proof
namespace Machine

/-- The word of a comparison decided by a proposition is 1 where it holds and 0 where it does not
(43_compare.md R160). -/
theorem condWord_decide (p : Prop) [Decidable p] : condWord (decide p) = if p then 1#32 else 0#32 := by
  by_cases hp : p <;> simp [condWord, hp]

/-- `seq` compares all 32 bits and never faults (43_compare.md R163). -/
theorem aluSeq_eq (a b : Word) : aluSeq a b = .ok (if a = b then 1#32 else 0#32) :=
  congrArg Except.ok (condWord_decide (a = b))

theorem exec_seq (ra : BitVec 5) (b : Src2) (rd : BitVec 5) (s : State) :
    exec (.seq ra b rd) s = s.complete (s.alu aluSeq ra b rd) := rfl

theorem encodedAsE_seq : EncodedAsE 12 Instr.seq :=
  encodedAsE_of_instr fun d h => by simp only [Decoded.instr, h]

/-- Settles O34: `seq` has the ALU shape with an operation that never faults and answers the word of the
equality. -/
theorem seqWritesTheEquality : Obligations.SeqWritesTheEquality := by
  refine ⟨encodedAsE_seq, fun s ra b rd i j vb hra hb hrd => ?_⟩
  obtain ⟨t, hnext, hwrites⟩ := State.complete_alu_writesReg hra hb hrd (aluSeq_eq (s.readReg i) vb)
  exact ⟨t, _, (exec_seq ra b rd s).trans hnext, hwrites, rfl⟩

end Machine
end Sys2Proof
end

section
/-! Faults of an instruction (60_exceptions.md R202, R205): what taking one changes, when the fault of an
ALU operation is taken, which effects reach the fault record, and division by zero. -/

namespace Sys2Proof.Machine

/-! ### Taking a fault -/

/-- Raising at the instruction's index fills the fault record and keeps everything else
(60_exceptions.md R205). -/
theorem State.takesFault_raise (s : State) (e : Trap) :
    TakesFault s (s.raise e s.fetchAddr) e.cause e.info :=
  ⟨s.raise_run _ _, s.raise_faultCause _ _, s.raise_faultInfo _ _, s.raise_faultAddr _ _,
    s.raise_haltCause _ _, s.readReg_raise _ _, s.raise_pc _ _, s.raise_events _ _,
    .of_eq (s.raise_prog _ _) (s.raise_progLen _ _)⟩

/-- An ALU instruction whose operands have values and whose operation raises takes that fault, its
destination not written (40_cycle.md R117). -/
theorem State.complete_alu_takesFault {s : State} {f : Word → Word → Except Trap Word}
    {ra rd : BitVec 5} {b : Src2} {i j : Fin 8} {vb : Word} {e : Trap} (hra : ra.toNat = i.val)
    (hb : SrcValue s b vb) (hrd : rd.toNat = j.val) (hf : f (s.readReg i) vb = .error e) :
    ∃ t, s.complete (s.alu f ra b rd) = .next t ∧ TakesFault s t e.cause e.info := by
  have halu : s.alu f ra b rd = .error e := by
    simp only [State.alu, s.readField_of_eq ra i hra, src2_of_srcValue hb, (regIdx_ok_iff rd j).mpr hrd,
      hf]
  exact ⟨_, (s.complete_next_iff _ _).mpr (.inr ⟨e, halu, rfl⟩), s.takesFault_raise e⟩

/-! ### The fault record -/

/-- An instruction leaves the fault cause as it is, unless it takes a fault it can raise: no other effect
reaches the record. -/
theorem exec_faultCause {i : Instr} {s t : State} (h : exec i s = .next t) :
    t.faultCause = s.faultCause ∨ ∃ e, RaisedBy i e ∧ t.faultCause = e.cause := by
  rcases exec_effect i s t h with ⟨-, rfl⟩ | ⟨_, j, v, -, -, -, rfl⟩ | ⟨_, _, _, v, -, -, rfl⟩ |
    ⟨_, addr, -, rfl | rfl⟩ | ⟨e, -, rfl⟩ | ⟨e, he, rfl⟩
  · exact .inl (s.halt_faultCause .stop)
  · exact .inl (s.writeReg_faultCause j v)
  · exact .inl (State.setPc_faultCause _ v)
  · exact .inl rfl
  · exact .inl (s.setPc_faultCause _)
  · exact .inl (s.emit_faultCause e)
  · exact .inr ⟨e, he, s.raise_faultCause e _⟩

/-! ### Division by zero -/

theorem exec_div (ra : BitVec 5) (b : Src2) (rd : BitVec 5) (s : State) :
    exec (.div ra b rd) s = s.complete (s.alu aluDiv ra b rd) := rfl

/-- A zero divisor raises, whatever the dividend (42_arith_logic.md R144). -/
theorem aluDiv_zero (a : Word) : aluDiv a 0#32 = .error ⟨.divisionByZero, 0#32⟩ := if_pos rfl

/-- Of all instructions only `div` raises DivisionByZero (60_exceptions.md R200, R202). -/
theorem RaisedBy.eq_div {i : Instr} {e : Trap} (h : RaisedBy i e) (hcause : e.cause = .divisionByZero) :
    ∃ ra b rd, i = .div ra b rd := by
  rcases h with ⟨hindex, -⟩ | ⟨-, -, hdiv⟩ | ⟨hshift, -⟩
  · exact nomatch hcause.symm.trans hindex
  · exact hdiv
  · exact nomatch hcause.symm.trans hshift

/-- Settles O35: `div` has the ALU shape with an operation that raises on a zero divisor, and a fault cause
that becomes DivisionByZero was raised by the instruction, which only `div` can do. -/
theorem divByZeroFaults : Obligations.DivByZeroFaults := by
  refine ⟨fun s ra b rd i j hra hb hrd => ?_, fun i s t h hbefore hafter => ?_⟩
  · rw [exec_div]
    exact State.complete_alu_takesFault hra hb hrd (aluDiv_zero (s.readReg i))
  · rcases exec_faultCause h with hkept | ⟨e, hraised, hcause⟩
    · exact absurd (hkept.symm.trans hafter) hbefore
    · exact hraised.eq_div (hcause.symm.trans hafter)

end Sys2Proof.Machine
end

section
/-! Decoding (30_encoding.md R70 to R82): the nine fields as numbers, their overlaps, the format E rows of
the opcode map, and the round trip from an instruction through its word and its bytes. -/

namespace Sys2Proof

/-! ### The fields of a word -/

/-- Settles O1: each field is a slice of the word, and `toNat_slice` is its shift and modulus. -/
theorem decoderExtractsNineFields : Obligations.DecoderExtractsNineFields := by
  intro w
  refine ⟨?_, ?_, ?_, ?_, ?_, ?_, ?_, ?_, ?_⟩ <;> simp only [decodeFields, toNat_slice, Nat.pow_zero,
    Nat.div_one, Nat.pow_one]

/-- Settles O2: both sides of each concatenation are the same number, a sum of slices of the word. -/
theorem decodedFieldsOverlapAsStated : Obligations.DecodedFieldsOverlapAsStated := by
  intro w
  have hw := w.isLt
  refine ⟨?_, ?_, ?_, ?_, ?_, ?_, (wordB_decodeFields w).symm⟩ <;> apply BitVec.eq_of_toNat_eq <;>
    simp only [decodeFields, toNat_append_eq, toNat_slice] <;> omega

/-! ### The format E rows of the opcode map (30_encoding.md R80) -/

namespace Machine

theorem encodedAsE_sub : EncodedAsE 2 Instr.sub :=
  encodedAsE_of_instr fun d h => by simp only [Decoded.instr, h]

theorem encodedAsE_mul : EncodedAsE 3 Instr.mul :=
  encodedAsE_of_instr fun d h => by simp only [Decoded.instr, h]

theorem encodedAsE_div : EncodedAsE 4 Instr.div :=
  encodedAsE_of_instr fun d h => by simp only [Decoded.instr, h]

theorem encodedAsE_and : EncodedAsE 5 Instr.and :=
  encodedAsE_of_instr fun d h => by simp only [Decoded.instr, h]

theorem encodedAsE_or : EncodedAsE 6 Instr.or :=
  encodedAsE_of_instr fun d h => by simp only [Decoded.instr, h]

theorem encodedAsE_xor : EncodedAsE 7 Instr.xor :=
  encodedAsE_of_instr fun d h => by simp only [Decoded.instr, h]

theorem encodedAsE_shl : EncodedAsE 8 Instr.shl :=
  encodedAsE_of_instr fun d h => by simp only [Decoded.instr, h]

theorem encodedAsE_shr : EncodedAsE 9 Instr.shr :=
  encodedAsE_of_instr fun d h => by simp only [Decoded.instr, h]

theorem encodedAsE_slt : EncodedAsE 10 Instr.slt :=
  encodedAsE_of_instr fun d h => by simp only [Decoded.instr, h]

theorem encodedAsE_sle : EncodedAsE 11 Instr.sle :=
  encodedAsE_of_instr fun d h => by simp only [Decoded.instr, h]

theorem encodedAsE_load : EncodedAsE 13 Instr.load :=
  encodedAsE_of_instr fun d h => by simp only [Decoded.instr, h]

theorem encodedAsE_store : EncodedAsE 14 Instr.store :=
  encodedAsE_of_instr fun d h => by simp only [Decoded.instr, h]

end Machine

/-! ### From an instruction to its word and back -/

/-- The imm-flag and the field of a second operand determine it (30_encoding.md R85). -/
theorem Decoded.src2_of_fields {d : Decoded} {b : Src2} (himm : d.imm = b.imm) (hop2 : d.op2 = b.op2) :
    d.src2 = b := by
  cases b <;> simp [Decoded.src2, himm, hop2, Src2.imm, Src2.op2]

/-- The imm-flag and the field of a jump target determine it (30_encoding.md R86). -/
theorem Decoded.target_of_fields {d : Decoded} {t : Target} (himmj : d.immj = t.immj)
    (htgt : d.tgt = t.tgt) : d.target = t := by
  cases t <;> simp [Decoded.target, himmj, htgt, Target.immj, Target.tgt]

/-- `EncodedAsE` in terms of the decoded fields. -/
theorem decodeWord_of_encodedAsE {opc : Nat} {mk : BitVec 5 → Src2 → BitVec 5 → Instr}
    (hrow : Machine.EncodedAsE opc mk) (w : Word) (hopc : (decodeFields w).opc.toNat = opc) :
    decodeWord w = .ok (mk (decodeFields w).ra (decodeFields w).src2 (decodeFields w).rd) := by
  rw [hrow w (by rw [← decodeFields_opc_toNat, hopc]), decodeFields_src2]
  rfl

/-- A format E word decodes to its opcode's instruction of the fields it was made of. -/
theorem decodeWord_wordE {opc : Nat} {op : BitVec 5} {mk : BitVec 5 → Src2 → BitVec 5 → Instr}
    (hrow : Machine.EncodedAsE opc mk) (hop : op.toNat = opc) (ra : BitVec 5) (b : Src2)
    (rd : BitVec 5) : decodeWord (wordE op ra b rd) = .ok (mk ra b rd) := by
  obtain ⟨hopc, hra, himm, hop2, hrd⟩ := decodeFields_wordE op ra b rd
  rw [decodeWord_of_encodedAsE hrow _ (by rw [hopc, hop]), hra, hrd,
    Decoded.src2_of_fields himm hop2]

/-- Decoding inverts encoding, for ill-formed instructions too. -/
theorem decodeWord_encode (i : Instr) : decodeWord (encode i) = .ok i := by
  cases i with
  | stop =>
    obtain ⟨hopc, -⟩ := decodeFields_wordB 0#5 0#27
    exact Decoded.instr_stop hopc
  | add => exact decodeWord_wordE Machine.encodedAsE_add rfl _ _ _
  | sub => exact decodeWord_wordE Machine.encodedAsE_sub rfl _ _ _
  | mul => exact decodeWord_wordE Machine.encodedAsE_mul rfl _ _ _
  | div => exact decodeWord_wordE Machine.encodedAsE_div rfl _ _ _
  | and => exact decodeWord_wordE Machine.encodedAsE_and rfl _ _ _
  | or => exact decodeWord_wordE Machine.encodedAsE_or rfl _ _ _
  | xor => exact decodeWord_wordE Machine.encodedAsE_xor rfl _ _ _
  | shl => exact decodeWord_wordE Machine.encodedAsE_shl rfl _ _ _
  | shr => exact decodeWord_wordE Machine.encodedAsE_shr rfl _ _ _
  | slt => exact decodeWord_wordE Machine.encodedAsE_slt rfl _ _ _
  | sle => exact decodeWord_wordE Machine.encodedAsE_sle rfl _ _ _
  | seq => exact decodeWord_wordE Machine.encodedAsE_seq rfl _ _ _
  | load => exact decodeWord_wordE Machine.encodedAsE_load rfl _ _ _
  | store => exact decodeWord_wordE Machine.encodedAsE_store rfl _ _ _
  | jmp t rd =>
    obtain ⟨hopc, himmj, htgt, hrd⟩ := decodeFields_wordD 15#5 t rd
    exact (Decoded.instr_jmp hopc).trans (by rw [Decoded.target_of_fields himmj htgt, hrd])
  | braz ra addr =>
    obtain ⟨hopc, hra, haddr⟩ := decodeFields_wordC 16#5 ra addr
    exact (Decoded.instr_braz hopc).trans (by rw [hra, haddr])
  | branz ra addr =>
    obtain ⟨hopc, hra, haddr⟩ := decodeFields_wordC 17#5 ra addr
    exact (Decoded.instr_branz hopc).trans (by rw [hra, haddr])
  | scall num =>
    obtain ⟨hopc, hnum⟩ := decodeFields_wordB 18#5 num
    exact (Decoded.instr_scall hopc).trans (by rw [hnum])

/-- The decoder of bytes takes the word at the head of the stream and leaves the rest. -/
theorem decodeBytes_append (o : ByteOrder) {w : Word} {i : Instr} (h : decodeWord w = .ok i)
    (rest : List Byte) : decodeBytes o (bytesOfWord o w ++ rest) = .ok (i, rest) := by
  obtain ⟨b0, b1, b2, b3, hbytes, hword⟩ := bytesOfWord_spec o w
  simp only [hbytes, List.cons_append, List.nil_append, decodeBytes, hword, h]

/-- Settles O4: the word by `decodeWord_encode`, and its bytes in either order are that word's. -/
theorem decodeEncodeRoundTrip : Obligations.DecodeEncodeRoundTrip :=
  fun i => ⟨decodeWord_encode i, fun o rest => decodeBytes_append o (decodeWord_encode i) rest⟩

/-- Settles O5: each word is the encoding of its instruction. -/
theorem wordsWrittenFromTheSpecDecode : Obligations.WordsWrittenFromTheSpecDecode :=
  ⟨decodeWord_encode .stop, decodeWord_encode (.add 7#5 (.lit 65535#16) 7#5),
    decodeWord_encode (.slt 3#5 (.reg 1#16) 5#5), decodeWord_encode (.store 1#5 (.reg 4#16) 2#5),
    decodeWord_encode (.jmp (.direct 2097151#21) 7#5), decodeWord_encode (.jmp (.reg 6#21) 0#5),
    decodeWord_encode (.branz 7#5 4194303#22), decodeWord_encode (.scall 42#27)⟩

/-! ### Streams of words (20_memory.md R45) -/

/-- A stream begins with its first word's bytes, and reading takes them off as that word. -/
theorem streamWords_append (o : ByteOrder) (w : Word) (rest : List Byte) :
    streamWords o (bytesOfWord o w ++ rest) = (streamWords o rest).map (w :: ·) := by
  obtain ⟨b0, b1, b2, b3, hbytes, hword⟩ := bytesOfWord_spec o w
  simp only [hbytes, List.cons_append, List.nil_append, streamWords, hword]

theorem length_bytesOfWord (o : ByteOrder) (w : Word) : (bytesOfWord o w).length = 4 := by
  cases o <;> rfl

/-- Settles O11: by induction on the words, four bytes at a time. -/
theorem wordStreamRoundTripsInEitherByteOrder : Obligations.WordStreamRoundTripsInEitherByteOrder := by
  intro o ws
  induction ws with
  | nil => exact ⟨rfl, rfl⟩
  | cons w ws ih =>
    obtain ⟨hread, hlength⟩ := ih
    constructor
    · rw [streamBytes, streamWords_append, hread, Option.map_some]
    · rw [streamBytes, List.length_append, length_bytesOfWord, hlength, List.length_cons]
      omega

end Sys2Proof
end

section
/-! What an instruction and a cycle can do, by the part of the state it reaches: the program, the registers
and `pc` (10_state.md R22, 45_control.md R183), the status, the trace; and the ends of a run (41_stop.md
R132, 60_exceptions.md R200 to R206). -/

namespace Sys2Proof

/-- Opcode 0 is `stop` alone (30_encoding.md R80). -/
theorem Instr.eq_stop_of_opcode {i : Instr} (h : i.opcode.toNat = 0) : i = .stop := by
  cases i with
  | stop => rfl
  | _ => cases h

namespace Machine

/-! ### Opcodes of the instruction kinds -/

/-- The ALU instructions have opcodes 1 to 12 (30_encoding.md R80). -/
theorem AluForm.opcode_bounds {mk : BitVec 5 → Src2 → BitVec 5 → Instr} (h : AluForm mk)
    (ra : BitVec 5) (b : Src2) (rd : BitVec 5) :
    1 ≤ (mk ra b rd).opcode.toNat ∧ (mk ra b rd).opcode.toNat ≤ 12 := by
  rcases h with rfl | rfl | rfl | rfl | rfl | rfl | rfl | rfl | rfl | rfl | rfl | rfl <;>
    simp [Instr.opcode]

/-- The control transfers have opcodes 15 to 17 (30_encoding.md R80). -/
theorem IsTransfer.opcode_bounds {i : Instr} (h : IsTransfer i) :
    15 ≤ i.opcode.toNat ∧ i.opcode.toNat ≤ 17 := by
  rcases h with ⟨_, _, rfl⟩ | ⟨_, _, rfl⟩ | ⟨_, _, rfl⟩ <;> simp [Instr.opcode]

/-- The instructions that emit an event have opcodes 13, 14 and 18. -/
theorem EventOf.opcode {i : Instr} {s : State} {e : Event} (h : EventOf i s e) :
    i.opcode.toNat = 13 ∨ i.opcode.toNat = 14 ∨ i.opcode.toNat = 18 := by
  rcases h with ⟨_, _, _, rfl, -⟩ | ⟨_, _, _, rfl, -⟩ | ⟨_, rfl, -⟩
  · exact .inl rfl
  · exact .inr (.inl rfl)
  · exact .inr (.inr rfl)

/-- Which opcodes raise which fault of the table (60_exceptions.md R200). -/
theorem RaisedBy.cause_and_opcode {i : Instr} {e : Trap} (h : RaisedBy i e) :
    (e.cause = .divisionByZero ∧ i.opcode.toNat = 4) ∨
      (e.cause = .registerIndexOutOfRange ∧
        ((1 ≤ i.opcode.toNat ∧ i.opcode.toNat ≤ 12) ∨ (15 ≤ i.opcode.toNat ∧ i.opcode.toNat ≤ 17))) ∨
      (e.cause = .shiftAmountOutOfRange ∧ (i.opcode.toNat = 8 ∨ i.opcode.toNat = 9)) := by
  rcases h with ⟨hcause, -, -, ⟨mk, ra, b, rd, hmk, rfl⟩ | htransfer⟩ | ⟨hcause, -, _, _, _, rfl⟩ |
    ⟨hcause, -, ⟨_, _, _, rfl⟩ | ⟨_, _, _, rfl⟩⟩
  · exact .inr (.inl ⟨hcause, .inl (hmk.opcode_bounds ra b rd)⟩)
  · exact .inr (.inl ⟨hcause, .inr htransfer.opcode_bounds⟩)
  · exact .inl ⟨hcause, rfl⟩
  · exact .inr (.inr ⟨hcause, .inl rfl⟩)
  · exact .inr (.inr ⟨hcause, .inr rfl⟩)

/-! ### What an instruction leaves unchanged -/

section
variable {i : Instr} {s t : State} (h : exec i s = .next t)
include h

/-- No instruction writes the program (20_memory.md R41). -/
theorem exec_sameProgram : SameProgram s t := by
  rcases exec_effect i s t h with ⟨-, rfl⟩ | ⟨_, _, _, -, -, -, rfl⟩ | ⟨_, _, _, _, -, -, rfl⟩ |
    ⟨_, _, -, rfl | rfl⟩ | ⟨_, -, rfl⟩ | ⟨_, -, rfl⟩ <;>
  exact .of_eq rfl rfl

/-- Only a control transfer writes `pc` (45_control.md R183). -/
theorem exec_pc_of_not_transfer (htransfer : ¬ IsTransfer i) : t.pc = s.pc := by
  rcases exec_effect i s t h with ⟨-, rfl⟩ | ⟨_, _, _, -, -, -, rfl⟩ | ⟨tg, rd, _, _, hi, -, -⟩ |
    ⟨ra, addr, hi, -⟩ | ⟨_, -, rfl⟩ | ⟨_, -, rfl⟩
  · exact s.halt_pc _
  · exact s.writeReg_pc _ _
  · exact absurd (.inl ⟨tg, rd, hi⟩) htransfer
  · exact absurd (.inr (hi.imp (⟨ra, addr, ·⟩) (⟨ra, addr, ·⟩))) htransfer
  · exact s.emit_pc _
  · exact s.raise_pc _ _

/-- A register that the destination field does not name keeps its value (10_state.md R22). -/
theorem exec_readReg_of_not_dest {r : Fin 8}
    (hdest : ∀ f, destField i = some f → f.toNat ≠ r.val) : t.readReg r = s.readReg r := by
  have hne : ∀ {rd : BitVec 5} {j : Fin 8}, destField i = some rd → regIdx rd = .ok j → r ≠ j :=
    fun hrd hj hr => hdest _ hrd (by rw [(regIdx_ok_iff _ _).mp hj, hr])
  rcases exec_effect i s t h with ⟨-, rfl⟩ | ⟨rd, j, v, hrd, -, hj, rfl⟩ | ⟨tg, rd, j, v, rfl, hj, rfl⟩ |
    ⟨_, _, -, rfl | rfl⟩ | ⟨_, -, rfl⟩ | ⟨_, -, rfl⟩
  · exact s.readReg_halt _ r
  · exact s.readReg_writeReg_other j r v (hne hrd hj)
  · exact s.readReg_writeReg_other j r _ (hne rfl hj)
  · rfl
  · exact s.readReg_setPc _ r
  · exact s.readReg_emit _ r
  · exact s.readReg_raise _ _ r

/-- What an instruction does to the status: `stop` halts, a fault is taken, or the status stays. -/
theorem exec_status :
    (i = .stop ∧ t = s.halt .stop) ∨ (i ≠ .stop ∧ SameStatus s t) ∨
      ∃ e, RaisedBy i e ∧ t = s.raise e s.fetchAddr := by
  rcases exec_effect i s t h with hstop | ⟨rd, _, _, hrd, -, -, rfl⟩ | ⟨_, _, _, _, rfl, -, rfl⟩ |
    ⟨_, _, rfl | rfl, rfl | rfl⟩ | ⟨e, he, rfl⟩ | hraise
  · exact .inl hstop
  · refine .inr (.inl ⟨?_, rfl, rfl, rfl, rfl, rfl⟩)
    rintro rfl
    cases hrd
  · exact .inr (.inl ⟨nofun, rfl, rfl, rfl, rfl, rfl⟩)
  · exact .inr (.inl ⟨nofun, rfl, rfl, rfl, rfl, rfl⟩)
  · exact .inr (.inl ⟨nofun, rfl, rfl, rfl, rfl, rfl⟩)
  · exact .inr (.inl ⟨nofun, rfl, rfl, rfl, rfl, rfl⟩)
  · exact .inr (.inl ⟨nofun, rfl, rfl, rfl, rfl, rfl⟩)
  · refine .inr (.inl ⟨?_, rfl, rfl, rfl, rfl, rfl⟩)
    rintro rfl
    have hopcode := he.opcode
    simp [Instr.opcode] at hopcode
  · exact .inr (.inr hraise)

/-- What an instruction does to the trace: nothing, or it appends its one event (10_state.md R30). -/
theorem exec_events : t.events = s.events ∨ ∃ e, EventOf i s e ∧ t.events = s.events ++ [e] := by
  rcases exec_effect i s t h with ⟨-, rfl⟩ | ⟨_, _, _, -, -, -, rfl⟩ | ⟨_, _, _, _, -, -, rfl⟩ |
    ⟨_, _, -, rfl | rfl⟩ | ⟨e, he, rfl⟩ | ⟨_, -, rfl⟩
  · exact .inl (s.halt_events _)
  · exact .inl (s.writeReg_events _ _)
  · exact .inl (State.setPc_events _ _)
  · exact .inl rfl
  · exact .inl (s.setPc_events _)
  · exact .inr ⟨e, he, s.emit_events e⟩
  · exact .inl (s.raise_events _ _)

end

/-- Settles O48: every instruction answers, and one that is no transfer keeps `pc`. -/
theorem onlyTransfersWritePc : Obligations.OnlyTransfersWritePc := by
  intro i s htransfer
  obtain ⟨t, ht⟩ := exec_answers_next i s
  exact ⟨t, ht, exec_pc_of_not_transfer ht htransfer⟩

/-- Settles O49, by the effects of an instruction: the two that write a register name it in `destField`. -/
theorem onlyTheDestinationRegisterChanges : Obligations.OnlyTheDestinationRegisterChanges :=
  fun _ _ _ _ h hdest => exec_readReg_of_not_dest h hdest

/-! ### What a step leaves unchanged -/

/-- Settles O15: outside exec a step writes `pc` and the status only. -/
theorem noStepWritesTheProgram : Obligations.NoStepWritesTheProgram := by
  intro s t h
  rcases step_effect s t h with ⟨-, rfl⟩ | ⟨-, -, rfl⟩ | ⟨-, -, -, rfl⟩ | ⟨-, -, i, -, hexec, -⟩
  · exact .refl t
  · exact .of_eq rfl rfl
  · exact .of_eq rfl rfl
  · exact .trans (t := s.advancePc) (.of_eq rfl rfl) (exec_sameProgram hexec)

/-- Settles O16: the step of a word that decodes, and the increment inside a program. -/
theorem stepRunsTheDecodedInstruction : Obligations.StepRunsTheDecodedInstruction :=
  fun s _ hrun hpc hi => ⟨step_of_decode_ok hrun hpc hi, advancePc_toNat s hpc⟩

/-- Settles O18, by induction on the number of steps. -/
theorem stoppedMachineNeverMoves : Obligations.StoppedMachineNeverMoves := by
  intro s k hrun
  induction k with
  | zero => rfl
  | succ k ih => rw [runSteps_succ k s s (step_stopped s hrun), ih]

/-- Settles O20: a stopped machine answers itself, a bounds fault and an unrecognized word are next states,
and every instruction answers one. -/
theorem everyStepAnswersANextState : Obligations.EveryStepAnswersANextState := by
  intro s
  by_cases hrun : s.run = .running
  · by_cases hpc : s.pc.toNat < s.progLen.toNat
    · cases hi : decodeWord (s.prog.readWord s.pc.toNat) with
      | ok i =>
        rw [step_of_decode_ok hrun hpc hi]
        exact exec_answers_next i s.advancePc
      | error e => exact ⟨_, step_of_decode_error hrun hpc hi⟩
    · exact ⟨_, step_out_of_range s hrun (Nat.le_of_not_lt hpc)⟩
  · exact ⟨s, step_stopped s hrun⟩

/-! ### How a cycle ends -/

/-- The opcode of the word at `pc`. -/
def State.fetchedOpcode (s : State) : Nat := (s.prog.readWord s.pc.toNat).toNat / 2 ^ 27

/-- The five ways the cycle of a running machine ends, as far as the status shows them. -/
inductive CycleEnd (s t : State) : Prop where
  /-- The bounds check fails (40_cycle.md R112). -/
  | bounds (hpc : s.progLen.toNat ≤ s.pc.toNat) (ht : t = s.raisePc)
  /-- The word is `stop` (41_stop.md R130). -/
  | stop (hpc : s.pc.toNat < s.progLen.toNat) (hop : s.fetchedOpcode = 0)
      (ht : t = s.advancePc.halt .stop)
  /-- The word is no instruction (41_stop.md R131). -/
  | unknown (hpc : s.pc.toNat < s.progLen.toNat) (hop : 19 ≤ s.fetchedOpcode)
      (ht : t = s.advancePc.halt .unknownOpcode)
  /-- The instruction completes and the machine runs on. -/
  | completes (hpc : s.pc.toNat < s.progLen.toNat) (hop : 1 ≤ s.fetchedOpcode)
      (hop' : s.fetchedOpcode ≤ 18) (hstatus : SameStatus s t)
  /-- The instruction takes a fault (60_exceptions.md R205). -/
  | trap (hpc : s.pc.toNat < s.progLen.toNat) (i : Instr) (hop : i.opcode.toNat = s.fetchedOpcode)
      (e : Trap) (he : RaisedBy i e) (ht : t = s.advancePc.raise e s.pc)

/-- Every cycle ends in one of the five ways. -/
theorem step_cycleEnd {s t : State} (hrun : s.run = .running) (h : step s = .next t) :
    CycleEnd s t := by
  rcases step_effect s t h with ⟨hstopped, -⟩ | ⟨-, hpc, ht⟩ | ⟨-, hpc, ⟨e, he⟩, ht⟩ |
    ⟨-, hpc, i, hi, hexec, -⟩
  · exact absurd hrun hstopped
  · exact .bounds hpc ht
  · exact .unknown hpc (decodeWord_error_opcode _ e he) ht
  · have hop : i.opcode.toNat = s.fetchedOpcode := decodeWord_ok_opcode _ i hi
    rcases exec_status hexec with ⟨rfl, ht⟩ | ⟨hstop, hstatus⟩ | ⟨e, he, ht⟩
    · exact .stop hpc hop.symm ht
    · refine .completes hpc ?_ (hop ▸ i.opcode_toNat_le) hstatus
      rw [← hop]
      exact Nat.pos_of_ne_zero (fun hzero => hstop (Instr.eq_stop_of_opcode hzero))
    · exact .trap hpc i hop e he (by rw [ht, State.fetchAddr_advancePc])

/-- Settles O21: of the ends of a cycle, two are faults. -/
theorem faultsArePrecise : Obligations.FaultsArePrecise := by
  intro s t hrun h hfault
  cases step_cycleEnd hrun h with
  | bounds hpc ht =>
    subst ht
    rw [if_neg (Nat.not_lt.mpr hpc)]
    exact ⟨fun _ => rfl, rfl, rfl, .of_eq rfl rfl, rfl, rfl, rfl⟩
  | stop _ _ ht | unknown _ _ ht =>
    subst ht
    cases hfault
  | completes _ _ _ hstatus =>
    obtain ⟨hkept, -⟩ := hstatus
    rw [hfault, hrun] at hkept
    cases hkept
  | trap hpc i _ e he ht =>
    subst ht
    rw [if_pos hpc]
    refine ⟨fun _ => rfl, rfl, rfl, .of_eq rfl rfl, rfl, rfl, ?_⟩
    rcases he.cause_and_opcode with ⟨hcause, -⟩ | ⟨hcause, -⟩ | ⟨hcause, -⟩ <;>
      simp [hcause]

/-- Settles O22, one end of the cycle at a time. -/
theorem runEndsOnlyInTheStatedWays : Obligations.RunEndsOnlyInTheStatedWays := by
  intro s t hrun h
  rw [← State.fetchedOpcode]
  cases step_cycleEnd hrun h with
  | bounds hpc ht =>
    subst ht
    simp [State.raisePc, hpc, Nat.not_lt.mpr hpc]
  | stop hpc hop ht =>
    subst ht
    simp [hpc, hop]
  | unknown hpc hop ht =>
    subst ht
    simp [hpc, hop]
    omega
  | completes hpc hop hop' hstatus =>
    obtain ⟨hkept, -⟩ := hstatus
    simp [hkept, hrun]
    omega
  | trap hpc i hop e he ht =>
    subst ht
    have hcauses := he.cause_and_opcode
    rw [hop] at hcauses
    have hle := hop ▸ i.opcode_toNat_le
    rcases hcauses with ⟨hcause, hdiv⟩ | ⟨hcause, hindex⟩ | ⟨hcause, hshift⟩ <;>
      simp [hcause] <;> omega

/-! ### The trace -/

/-- What a step does to the trace: nothing, or it appends the one event of the fetched instruction. -/
theorem step_events {s t : State} (h : step s = .next t) :
    t.events = s.events ∨
      (s.run = .running ∧ s.pc.toNat < s.progLen.toNat ∧
        ∃ i e, decodeWord (s.prog.readWord s.pc.toNat) = .ok i ∧ EventOf i s.advancePc e ∧
          t.events = s.events ++ [e]) := by
  rcases step_effect s t h with ⟨-, rfl⟩ | ⟨-, -, rfl⟩ | ⟨-, -, -, rfl⟩ | ⟨hrun, hpc, i, hi, hexec, -⟩
  · exact .inl rfl
  · exact .inl rfl
  · exact .inl rfl
  · rcases exec_events hexec with hsame | ⟨e, he, hevents⟩
    · exact .inl hsame
    · exact .inr ⟨hrun, hpc, i, e, hi, he, hevents⟩

/-- Settles O56: the appended event is what the trace has beyond its old length, and the instructions that
append one have opcodes 13, 14 and 18. -/
theorem stepAppendsAtMostOneEvent : Obligations.StepAppendsAtMostOneEvent := by
  intro s t h
  rcases step_events h with hsame | ⟨hrun, -, i, e, hi, he, hevents⟩
  · exact .inl hsame
  · refine .inr ⟨e, hevents, ?_, hrun, ?_⟩
    · rw [eventPort, hevents, List.drop_left]
    · rw [← decodeWord_ok_opcode _ i hi]
      exact he.opcode

end Machine
end Sys2Proof
end

section
/-! The invariant of the machine (10_state.md R26 to R28, R30; 60_exceptions.md R200 to R206): what it says of
the status and of the trace, kept by every step. -/

namespace Sys2Proof.Machine

/-! ### The records of the status -/

/-- The part of the invariant about the run state and the cause records. -/
structure RecordsOk (s : State) : Prop where
  running : s.run = .running → s.haltCause = .none ∧ NoFaultRecord s
  halted : s.run = .halted → HaltRecordOk s ∧ NoFaultRecord s
  faulted : s.run = .faulted → s.haltCause = .none ∧ FaultRecordOk s

/-- The invariant is what it says of the store, of the records and of the trace. -/
theorem State.inv_iff (s : State) :
    s.Inv ↔ (s.prog.wf = true ∧ s.prog.within s.progLen.toNat = true) ∧ RecordsOk s ∧
      ∀ e ∈ s.events, EventFrom s e :=
  ⟨fun h => ⟨⟨h.storeWf, h.storeWithin⟩, ⟨h.running, h.halted, h.faulted⟩, h.trace⟩,
    fun ⟨⟨hwf, hwithin⟩, ⟨hrunning, hhalted, hfaulted⟩, htrace⟩ =>
      ⟨hwf, hwithin, hrunning, hhalted, hfaulted, htrace⟩⟩

section
variable {s : State}

theorem RecordsOk.of_running (hrun : s.run = .running) (hhalt : s.haltCause = .none)
    (hfault : NoFaultRecord s) : RecordsOk s :=
  ⟨fun _ => ⟨hhalt, hfault⟩, fun h => (nomatch hrun.symm.trans h), fun h => (nomatch hrun.symm.trans h)⟩

theorem RecordsOk.of_halted (hrun : s.run = .halted) (hhalt : HaltRecordOk s)
    (hfault : NoFaultRecord s) : RecordsOk s :=
  ⟨fun h => (nomatch hrun.symm.trans h), fun _ => ⟨hhalt, hfault⟩, fun h => (nomatch hrun.symm.trans h)⟩

theorem RecordsOk.of_faulted (hrun : s.run = .faulted) (hhalt : s.haltCause = .none)
    (hfault : FaultRecordOk s) : RecordsOk s :=
  ⟨fun h => (nomatch hrun.symm.trans h), fun h => (nomatch hrun.symm.trans h), fun _ => ⟨hhalt, hfault⟩⟩

end

/-- The bounds fault records the offending `pc` twice (60_exceptions.md R201). -/
theorem State.faultRecordOk_raisePc {s : State} (hpc : s.progLen.toNat ≤ s.pc.toNat) :
    FaultRecordOk s.raisePc :=
  ⟨rfl, rfl, hpc⟩

/-- A halt after the fetch has its cause in the word before `pc` (40_cycle.md R119). -/
theorem State.haltRecordOk_halt {s : State} (hpc : s.pc.toNat < s.progLen.toNat) {c : HaltCause}
    (hcause : (c = .stop ∧ s.fetchedOpcode = 0) ∨ (c = .unknownOpcode ∧ 19 ≤ s.fetchedOpcode)) :
    HaltRecordOk (s.advancePc.halt c) := by
  simp only [HaltRecordOk, halt_pc, halt_progLen, halt_haltCause, halt_prog, advancePc_pc,
    advancePc_progLen, advancePc_prog, advancePc_toNat s hpc, Nat.add_sub_cancel]
  exact ⟨Nat.succ_pos _, hpc, hcause⟩

/-- A fault that an instruction can raise has a record that agrees with its cause, at the index of the
instruction (60_exceptions.md R202 to R206). -/
theorem State.faultRecordOk_raise {s : State} (hpc : s.pc.toNat < s.progLen.toNat) {i : Instr} {e : Trap}
    (he : RaisedBy i e) : FaultRecordOk (s.advancePc.raise e s.pc) := by
  have hword : FaultAtWord (s.advancePc.raise e s.pc) := ⟨hpc, advancePc_toNat s hpc⟩
  unfold FaultRecordOk
  rcases he with ⟨hcause, hge, hlt, -⟩ | ⟨hcause, hzero, -⟩ | ⟨hcause, hge, -⟩
  · simp only [raise_faultCause, hcause]
    exact ⟨hge, hlt, hword⟩
  · simp only [raise_faultCause, hcause]
    exact ⟨hzero, hword⟩
  · simp only [raise_faultCause, hcause]
    exact ⟨hge, hword⟩

/-- A cycle ends with records that agree with the run state, if it begins without a cause. -/
theorem RecordsOk.of_cycleEnd {s t : State} (hrun : s.run = .running) (hhalt : s.haltCause = .none)
    (hfault : NoFaultRecord s) (h : CycleEnd s t) : RecordsOk t := by
  cases h with
  | bounds hpc ht =>
    subst ht
    exact .of_faulted rfl hhalt (State.faultRecordOk_raisePc hpc)
  | stop hpc hop ht =>
    subst ht
    exact .of_halted rfl (State.haltRecordOk_halt hpc (.inl ⟨rfl, hop⟩)) hfault
  | unknown hpc hop ht =>
    subst ht
    exact .of_halted rfl (State.haltRecordOk_halt hpc (.inr ⟨rfl, hop⟩)) hfault
  | completes _ _ _ hstatus =>
    obtain ⟨hrun', hhalt', hcause', hinfo', haddr'⟩ := hstatus
    obtain ⟨hcause, hinfo, haddr⟩ := hfault
    exact .of_running (hrun'.trans hrun) (hhalt'.trans hhalt)
      ⟨hcause'.trans hcause, hinfo'.trans hinfo, haddr'.trans haddr⟩
  | trap hpc i hop e he ht =>
    subst ht
    exact .of_faulted rfl hhalt (State.faultRecordOk_raise hpc he)

/-! ### The events of the trace -/

/-- Where an event comes from depends on the program alone. -/
theorem EventFrom.of_sameProgram {s t : State} (h : SameProgram s t) {e : Event} (he : EventFrom s e) :
    EventFrom t e := by
  obtain ⟨-, hprog, hlen⟩ := h
  simpa only [EventFrom, hprog, hlen] using he

/-- The event an instruction emits is one of the fetched word at its index. -/
theorem EventOf.eventFrom {s : State} (hpc : s.pc.toNat < s.progLen.toNat) {i : Instr}
    (hi : decodeWord (s.prog.readWord s.pc.toNat) = .ok i) {e : Event} (he : EventOf i s.advancePc e) :
    EventFrom s e := by
  rcases he with ⟨ra, b, rd, rfl, rfl⟩ | ⟨ra, b, rd, rfl, rfl⟩ | ⟨num, rfl, rfl⟩ <;>
    rw [State.fetchAddr_advancePc]
  · exact ⟨hpc, b, rfl, rfl, hi⟩
  · exact ⟨hpc, b, rfl, rfl, hi⟩
  · exact ⟨hpc, hi⟩

/-- A step keeps it true that every event of the trace comes from the program. -/
theorem step_keeps_trace {s t : State} (h : step s = .next t) (htrace : ∀ e ∈ s.events, EventFrom s e) :
    ∀ e ∈ t.events, EventFrom t e := by
  intro e he
  refine .of_sameProgram (noStepWritesTheProgram s t h) ?_
  rcases step_events h with hsame | ⟨-, hpc, i, e', hi, he', hevents⟩
  · exact htrace e (hsame ▸ he)
  · rw [hevents, List.mem_append, List.mem_singleton] at he
    rcases he with hold | rfl
    · exact htrace e hold
    · exact he'.eventFrom hpc hi

/-! ### The step lemma -/

/-- Settles O55: a stopped machine stays; from a running one, which holds no cause, the records agree at
each end of the cycle, no step writes the program, and an appended event is the fetched word's. -/
theorem everyStepKeepsTheInvariant : Obligations.EveryStepKeepsTheInvariant := by
  intro s t hinv h
  by_cases hrun : s.run = .running
  · obtain ⟨hhalt, hfault⟩ := hinv.running hrun
    obtain ⟨-, hprog, hlen⟩ := noStepWritesTheProgram s t h
    refine t.inv_iff.mpr ⟨?_, .of_cycleEnd hrun hhalt hfault (step_cycleEnd hrun h),
      step_keeps_trace h hinv.trace⟩
    rw [hprog, hlen]
    exact ⟨hinv.storeWf, hinv.storeWithin⟩
  · rw [step_stopped s hrun] at h
    cases h
    exact hinv

end Sys2Proof.Machine
end

section
/-! Opcodes 2 to 11 and the faults of the common ALU shape (42_arith_logic.md, 43_compare.md, 40_cycle.md
R115 to R118): the operation of each instruction, the value it writes, and its faults in order. -/

namespace Sys2Proof.Machine

/-! ### The operation of an ALU instruction -/

/-- The instruction has the common ALU shape with the operation `f` (40_cycle.md R117, R118). -/
def RunsAlu (mk : BitVec 5 → Src2 → BitVec 5 → Instr) (f : Word → Word → Except Trap Word) : Prop :=
  ∀ (s : State) (ra : BitVec 5) (b : Src2) (rd : BitVec 5),
    exec (mk ra b rd) s = s.complete (s.alu f ra b rd)

theorem runsAlu_add : RunsAlu .add aluAdd := fun _ _ _ _ => rfl
theorem runsAlu_sub : RunsAlu .sub aluSub := fun _ _ _ _ => rfl
theorem runsAlu_mul : RunsAlu .mul aluMul := fun _ _ _ _ => rfl
theorem runsAlu_div : RunsAlu .div aluDiv := fun _ _ _ _ => rfl
theorem runsAlu_and : RunsAlu .and aluAnd := fun _ _ _ _ => rfl
theorem runsAlu_or : RunsAlu .or aluOr := fun _ _ _ _ => rfl
theorem runsAlu_xor : RunsAlu .xor aluXor := fun _ _ _ _ => rfl
theorem runsAlu_shl : RunsAlu .shl aluShl := fun _ _ _ _ => rfl
theorem runsAlu_shr : RunsAlu .shr aluShr := fun _ _ _ _ => rfl
theorem runsAlu_slt : RunsAlu .slt aluSlt := fun _ _ _ _ => rfl
theorem runsAlu_sle : RunsAlu .sle aluSle := fun _ _ _ _ => rfl
theorem runsAlu_seq : RunsAlu .seq aluSeq := fun _ _ _ _ => rfl

section
variable {mk : BitVec 5 → Src2 → BitVec 5 → Instr} {f : Word → Word → Except Trap Word} {s : State}
  {ra rd : BitVec 5} {b : Src2} {i j : Fin 8} {vb : Word} (hrun : RunsAlu mk f)
include hrun

/-- Where the operands have values and the operation answers `v`, the instruction writes `v` and nothing
else, and what holds of `v` holds of the value written. -/
theorem RunsAlu.writes (hra : ra.toNat = i.val) (hb : SrcValue s b vb) (hrd : rd.toNat = j.val)
    {v : Word} {P : Word → Prop} (hf : f (s.readReg i) vb = .ok v) (hv : P v) :
    ∃ t v, exec (mk ra b rd) s = .next t ∧ WritesReg s t j v ∧ P v := by
  obtain ⟨t, hnext, hwrites⟩ := State.complete_alu_writesReg hra hb hrd hf
  exact ⟨t, v, (hrun s ra b rd).trans hnext, hwrites, hv⟩

/-- Where the operands have values and the operation raises, the instruction takes that fault. -/
theorem RunsAlu.raises (hra : ra.toNat = i.val) (hb : SrcValue s b vb) (hrd : rd.toNat = j.val)
    {e : Trap} (hf : f (s.readReg i) vb = .error e) :
    ∃ t, exec (mk ra b rd) s = .next t ∧ TakesFault s t e.cause e.info := by
  rw [hrun]
  exact State.complete_alu_takesFault hra hb hrd hf

end

/-! ### Arithmetic and logic -/

/-- A difference of words as numbers, the borrow added first. -/
theorem toNat_sub_borrow (a b : Word) : (a - b).toNat = (a.toNat + 2 ^ 32 - b.toNat) % 2 ^ 32 := by
  have hb := b.isLt
  rw [BitVec.toNat_sub]
  congr 1
  omega

/-- Settles O24: the operation subtracts, with a borrow of 2^32. -/
theorem subWritesTheDifferenceModulo : Obligations.SubWritesTheDifferenceModulo :=
  ⟨encodedAsE_sub, fun s _ _ _ i _ vb hra hb hrd =>
    runsAlu_sub.writes hra hb hrd rfl (toNat_sub_borrow (s.readReg i) vb)⟩

/-- Settles O25: the product of two words is the product of their values modulo 2^32. -/
theorem mulWritesTheLowProduct : Obligations.MulWritesTheLowProduct :=
  ⟨encodedAsE_mul, fun s _ _ _ i _ vb hra hb hrd =>
    runsAlu_mul.writes hra hb hrd rfl (BitVec.toNat_mul (s.readReg i) vb)⟩

/-- A nonzero divisor divides, unsigned (42_arith_logic.md R144). -/
theorem aluDiv_of_ne_zero (a : Word) {b : Word} (hb : b ≠ 0#32) : aluDiv a b = .ok (a / b) := if_neg hb

/-- Settles O26: the operation answers the quotient where the divisor is not zero. -/
theorem divWritesTheUnsignedQuotient : Obligations.DivWritesTheUnsignedQuotient :=
  ⟨encodedAsE_div, fun s _ _ _ i _ vb hra hb hrd hzero =>
    runsAlu_div.writes hra hb hrd (aluDiv_of_ne_zero (s.readReg i) hzero)
      (BitVec.toNat_udiv (x := s.readReg i) (y := vb))⟩

/-- Settles O27, bit by bit. -/
theorem andWritesTheBitwiseAnd : Obligations.AndWritesTheBitwiseAnd :=
  ⟨encodedAsE_and, fun _ _ _ _ _ _ _ hra hb hrd =>
    runsAlu_and.writes hra hb hrd rfl (fun _ => BitVec.getLsbD_and)⟩

/-- Settles O28, bit by bit. -/
theorem orWritesTheBitwiseOr : Obligations.OrWritesTheBitwiseOr :=
  ⟨encodedAsE_or, fun _ _ _ _ _ _ _ hra hb hrd =>
    runsAlu_or.writes hra hb hrd rfl (fun _ => BitVec.getLsbD_or)⟩

/-- Settles O29, bit by bit. -/
theorem xorWritesTheBitwiseXor : Obligations.XorWritesTheBitwiseXor :=
  ⟨encodedAsE_xor, fun _ _ _ _ _ _ _ hra hb hrd =>
    runsAlu_xor.writes hra hb hrd rfl (fun _ => BitVec.getLsbD_xor)⟩

/-! ### Shifts -/

section
variable (f : Word → Nat → Word) (a : Word) {b : Word}

/-- A shift by less than 32 answers the shifted word (42_arith_logic.md R148, R149). -/
theorem aluShift_of_lt (hb : b.toNat < 32) : aluShift shiftOver f a b = .ok (f a b.toNat) :=
  (aluShift_fault f a b).trans (if_pos hb)

/-- A shift by 32 or more raises with the whole amount (42_arith_logic.md R151). -/
theorem aluShift_of_ge (hb : 32 ≤ b.toNat) :
    aluShift shiftOver f a b = .error ⟨.shiftAmountOutOfRange, b⟩ :=
  (aluShift_fault f a b).trans (if_neg (Nat.not_lt.mpr hb))

end

/-- Settles O30: a left shift is a multiplication by a power of two, modulo 2^32. -/
theorem shlWritesTheLeftShift : Obligations.ShlWritesTheLeftShift :=
  ⟨encodedAsE_shl, fun _ _ _ _ _ _ _ hra hb hrd hlt =>
    runsAlu_shl.writes hra hb hrd (aluShift_of_lt _ _ hlt)
      (by rw [BitVec.toNat_shiftLeft, Nat.shiftLeft_eq])⟩

/-- Settles O31: a logical right shift is a division by a power of two. -/
theorem shrWritesTheLogicalRightShift : Obligations.ShrWritesTheLogicalRightShift :=
  ⟨encodedAsE_shr, fun _ _ _ _ _ _ _ hra hb hrd hlt =>
    runsAlu_shr.writes hra hb hrd (aluShift_of_lt _ _ hlt)
      (by rw [BitVec.toNat_ushiftRight, Nat.shiftRight_eq_div_pow])⟩

/-- Settles O36: both shifts raise on an amount of 32 or more. -/
theorem shiftsBy32OrMoreFault : Obligations.ShiftsBy32OrMoreFault := by
  intro mk s ra b rd i j vb hmk hra hb hrd hge
  rcases hmk with rfl | rfl
  · exact runsAlu_shl.raises hra hb hrd (aluShift_of_ge _ _ hge)
  · exact runsAlu_shr.raises hra hb hrd (aluShift_of_ge _ _ hge)

/-! ### Comparisons -/

/-- Settles O32: the word of the comparison `<` of the values. -/
theorem sltWritesTheUnsignedLess : Obligations.SltWritesTheUnsignedLess :=
  ⟨encodedAsE_slt, fun _ _ _ _ _ _ _ hra hb hrd =>
    runsAlu_slt.writes hra hb hrd rfl (condWord_decide _)⟩

/-- Settles O33: the word of the comparison `≤` of the values. -/
theorem sleWritesTheUnsignedLessOrEqual : Obligations.SleWritesTheUnsignedLessOrEqual :=
  ⟨encodedAsE_sle, fun _ _ _ _ _ _ _ hra hb hrd =>
    runsAlu_sle.writes hra hb hrd rfl (condWord_decide _)⟩

/-! ### Register fields of 8 or more -/

/-- The operations fault only by a zero divisor or a shift amount, never by an index. -/
def NoIndexFault (f : Word → Word → Except Trap Word) : Prop :=
  ∀ va vb e, f va vb = .error e → e.cause ≠ .registerIndexOutOfRange

/-- Each of the twelve ALU instructions has the common shape, with an operation that raises no index
fault. -/
theorem AluForm.runsAlu {mk : BitVec 5 → Src2 → BitVec 5 → Instr} (h : AluForm mk) :
    ∃ f, RunsAlu mk f ∧ NoIndexFault f := by
  have hshift : ∀ g : Word → Nat → Word, NoIndexFault (aluShift shiftOver g) := by
    intro g va vb e he
    rw [shiftOver, aluShift_fault] at he
    split at he <;> cases he
    nofun
  rcases h with rfl | rfl | rfl | rfl | rfl | rfl | rfl | rfl | rfl | rfl | rfl | rfl
  · exact ⟨_, runsAlu_add, nofun⟩
  · exact ⟨_, runsAlu_sub, nofun⟩
  · exact ⟨_, runsAlu_mul, nofun⟩
  · refine ⟨_, runsAlu_div, fun va vb e he => ?_⟩
    unfold aluDiv at he
    split at he <;> cases he
    nofun
  · exact ⟨_, runsAlu_and, nofun⟩
  · exact ⟨_, runsAlu_or, nofun⟩
  · exact ⟨_, runsAlu_xor, nofun⟩
  · exact ⟨_, runsAlu_shl, hshift _⟩
  · exact ⟨_, runsAlu_shr, hshift _⟩
  · exact ⟨_, runsAlu_slt, nofun⟩
  · exact ⟨_, runsAlu_sle, nofun⟩
  · exact ⟨_, runsAlu_seq, nofun⟩

/-- A field of 8 or more raises, with the field's value as information (40_cycle.md R115). -/
theorem regIdx_of_ge {w : Nat} {f : BitVec w} (h : 8 ≤ f.toNat) :
    regIdx f = .error ⟨.registerIndexOutOfRange, BitVec.ofNat 32 f.toNat⟩ :=
  (regIdx_error_iff f _).mpr ⟨h, by rw [BitVec.ofNat_toNat]⟩

/-- A field of 8 or more cannot be read. -/
theorem State.readField_error_of_ge {w : Nat} (s : State) {f : BitVec w} (h : 8 ≤ f.toNat) :
    s.readField f = .error ⟨.registerIndexOutOfRange, BitVec.ofNat 32 f.toNat⟩ := by
  rw [readField, regIdx_of_ge h]

/-- A field below 8 can be read. -/
theorem State.readField_of_lt {w : Nat} (s : State) {f : BitVec w} (h : f.toNat < 8) :
    s.readField f = .ok (s.readReg ⟨f.toNat, h⟩) :=
  s.readField_of_eq f ⟨f.toNat, h⟩ rfl

/-- An instruction whose operation raises takes that fault. -/
theorem State.complete_error_takesFault {s : State} {r : Except Trap State} {c : FaultCause}
    {info : Word} (h : r = .error ⟨c, info⟩) : ∃ t, s.complete r = .next t ∧ TakesFault s t c info :=
  ⟨_, (s.complete_next_iff _ r).mpr (.inr ⟨_, h, rfl⟩), s.takesFault_raise ⟨c, info⟩⟩

/-- Settles O37: the three reads of the common shape in order, each tried only where those before it
succeed. -/
theorem aluIndexFaultsInOrder : Obligations.AluIndexFaultsInOrder := by
  intro mk s ra b rd hmk
  obtain ⟨f, hrun, -⟩ := hmk.runsAlu
  rw [hrun]
  refine ⟨fun hra => State.complete_error_takesFault ?_,
    fun field hra hb hfield => State.complete_error_takesFault ?_,
    fun vb hra hb hrd => State.complete_error_takesFault ?_⟩
  · rw [State.alu, s.readField_error_of_ge hra]
  · subst hb
    rw [State.alu, s.readField_of_lt hra, State.src2, s.readField_error_of_ge hfield]
  · rw [State.alu, s.readField_of_lt hra, State.src2_of_srcValue hb, regIdx_of_ge hrd]

end Sys2Proof.Machine
end

section
/-! The encoder block (30_encoding.md R92 to R98): its checks and its packing as arithmetic, per layout; that
it agrees with the words of the instructions; and what its words decode to. -/

namespace Sys2Proof

/-! ### The layout an opcode selects (30_encoding.md R66, R93) -/

section
variable {op : BitVec 5}

theorem layoutOf_of_ge (h : 19 ≤ op.toNat) : layoutOf op = none := by
  unfold layoutOf
  split
  case h_6 => exact if_neg (by omega)
  all_goals omega

theorem layoutOf_formatE (h1 : 1 ≤ op.toNat) (h14 : op.toNat ≤ 14) : layoutOf op = some .formatE := by
  unfold layoutOf
  split
  case h_6 => exact if_pos (by omega)
  all_goals omega

theorem layoutOf_formatC (h : op = 16#5 ∨ op = 17#5) : layoutOf op = some .formatC := by
  rcases h with rfl | rfl <;> rfl

/-- The defined opcodes by their layouts. -/
theorem opcode_cases (h : op.toNat ≤ 18) :
    op = 0#5 ∨ (1 ≤ op.toNat ∧ op.toNat ≤ 14) ∨ op = 15#5 ∨ (op = 16#5 ∨ op = 17#5) ∨ op = 18#5 := by
  bv_omega

/-- The operand count of an opcode, as a number. -/
theorem layoutOf_count (h : op.toNat ≤ 18) :
    ∃ l, layoutOf op = some l ∧ l.count =
      if op.toNat = 0 then 0 else if op.toNat ≤ 14 then 3 else if op.toNat ≤ 17 then 2 else 1 := by
  rcases opcode_cases h with rfl | ⟨h1, h14⟩ | rfl | (rfl | rfl) | rfl
  · exact ⟨.formatA, rfl, rfl⟩
  · exact ⟨.formatE, layoutOf_formatE h1 h14, by rw [if_neg (by omega), if_pos h14]; rfl⟩
  · exact ⟨.formatD, rfl, rfl⟩
  · exact ⟨.formatC, rfl, rfl⟩
  · exact ⟨.formatC, rfl, rfl⟩
  · exact ⟨.formatB, rfl, rfl⟩

end

/-! ### The five checks in order (30_encoding.md R94) -/

/-- An opcode without a layout is refused first. -/
theorem encoder_of_layoutOf_none {op : BitVec 5} (h : layoutOf op = none) (ops : List Operand) :
    encoder op ops = .error .badOpcode := by
  simp only [encoder, h]

section
variable {op : BitVec 5} {l : Layout} (hl : layoutOf op = some l) {ops : List Operand}
include hl

/-- A wrong operand count is refused next. -/
theorem encoder_of_length_ne (h : ops.length ≠ l.count) : encoder op ops = .error .badOperandCount := by
  simp only [encoder, hl, if_pos h]

/-- With the right count, the kinds, the register indices and the widths are checked in that order. -/
theorem encoder_of_length (h : ops.length = l.count) :
    encoder op ops =
      if kindsOk l ops = false then .error .operandKindMismatch
      else if ops.all Operand.regOk = false then .error .invalidRegister
      else if fieldsFit l ops = false then .error .fieldOverflow
      else .ok (pack op l ops) := by
  simp only [encoder, hl, if_neg (not_not.mpr h)]

end

theorem Operand.regOk_eq_false_iff (o : Operand) :
    o.regOk = false ↔ o.isReg = true ∧ 8 ≤ o.val.toNat := by
  rw [regOk, Bool.or_eq_false_iff, Bool.not_eq_false', decide_eq_false_iff_not, Nat.not_lt]
  rfl

theorem Operand.fits_eq_false_iff (o : Operand) (width : Nat) :
    o.fits width = false ↔ o.isReg = false ∧ 2 ^ width ≤ o.val.toNat := by
  simp [fits]

/-- Check 4 fails where it fails for some slot. -/
theorem regsOk_eq_false (o : Operand) (ops : List Operand) :
    (o :: ops).all Operand.regOk = false ↔ o.regOk = false ∨ ops.all Operand.regOk = false := by
  rw [List.all_cons, Bool.and_eq_false_iff]

/-! ### The packed word as a number (30_encoding.md R95) -/

/-- A shifted word as a multiple of a power of two, modulo 2^32. -/
theorem shiftLeft_eq_ofNat (w : Word) (n : Nat) : w <<< n = BitVec.ofNat 32 (w.toNat * 2 ^ n) := by
  apply BitVec.eq_of_toNat_eq
  rw [BitVec.toNat_shiftLeft, Nat.shiftLeft_eq, BitVec.toNat_ofNat]

/-- OR with a field that lies below all bits set so far is addition. -/
theorem ofNat_or_low {hi lo k : Nat} (hlo : lo < 2 ^ k) (hhi : hi % 2 ^ k = 0) :
    BitVec.ofNat 32 hi ||| BitVec.ofNat 32 lo = BitVec.ofNat 32 (hi + lo) := by
  obtain ⟨a, rfl⟩ := Nat.dvd_of_mod_eq_zero hhi
  rw [← BitVec.ofNat_or, ← Nat.two_pow_add_eq_or_of_lt hlo]

theorem opcode_shifted (op : BitVec 5) :
    (op.setWidth 32 : Word) <<< 27 = BitVec.ofNat 32 (op.toNat * 2 ^ 27) := by
  rw [shiftLeft_eq_ofNat, BitVec.toNat_setWidth_of_le (by decide)]

theorem Operand.immFlag_shifted (o : Operand) (n : Nat) :
    o.immFlag <<< n = BitVec.ofNat 32 (if o.isReg then 0 else 2 ^ n) := by
  rw [shiftLeft_eq_ofNat]
  cases o <;> simp [immFlag, isReg]

section
variable {op : BitVec 5} {o1 o2 o3 : Operand}

theorem pack_formatB (h1 : o1.val.toNat < 2 ^ 27) :
    pack op .formatB [o1] = BitVec.ofNat 32 (op.toNat * 2 ^ 27 + o1.val.toNat) := by
  rw [← ofNat_or_low h1 (by omega), ← opcode_shifted, BitVec.ofNat_toNat, BitVec.setWidth_eq]
  rfl

theorem pack_formatC (h1 : o1.val.toNat < 8) (h2 : o2.val.toNat < 2 ^ 22) :
    pack op .formatC [o1, o2] =
      BitVec.ofNat 32 (op.toNat * 2 ^ 27 + o1.val.toNat * 2 ^ 22 + o2.val.toNat) := by
  rw [← ofNat_or_low h2 (by omega), ← ofNat_or_low (k := 27) (by omega) (by omega), ← opcode_shifted,
    ← shiftLeft_eq_ofNat, BitVec.ofNat_toNat, BitVec.setWidth_eq]
  rfl

theorem pack_formatD (h1 : o1.val.toNat < 2 ^ 21) (h2 : o2.val.toNat < 8) :
    pack op .formatD [o1, o2] =
      BitVec.ofNat 32 (op.toNat * 2 ^ 27 + (if o1.isReg then 0 else 2 ^ 26) + o1.val.toNat * 2 ^ 5 +
        o2.val.toNat) := by
  have hflag : (if o1.isReg then 0 else 2 ^ 26) = 0 ∨ (if o1.isReg then 0 else 2 ^ 26) = 2 ^ 26 := by
    cases o1 <;> simp [Operand.isReg]
  rw [← ofNat_or_low (k := 5) (by omega) (by omega), ← ofNat_or_low (k := 26) (by omega) (by omega),
    ← ofNat_or_low (k := 27) (by omega) (by omega), ← opcode_shifted, ← shiftLeft_eq_ofNat,
    ← Operand.immFlag_shifted, BitVec.ofNat_toNat, BitVec.setWidth_eq]
  rfl

theorem pack_formatE (h1 : o1.val.toNat < 8) (h2 : o2.val.toNat < 2 ^ 16) (h3 : o3.val.toNat < 8) :
    pack op .formatE [o1, o2, o3] =
      BitVec.ofNat 32 (op.toNat * 2 ^ 27 + o1.val.toNat * 2 ^ 22 + (if o2.isReg then 0 else 2 ^ 21) +
        o2.val.toNat * 2 ^ 5 + o3.val.toNat) := by
  have hflag : (if o2.isReg then 0 else 2 ^ 21) = 0 ∨ (if o2.isReg then 0 else 2 ^ 21) = 2 ^ 21 := by
    cases o2 <;> simp [Operand.isReg]
  rw [← ofNat_or_low (k := 5) (by omega) (by omega), ← ofNat_or_low (k := 21) (by omega) (by omega),
    ← ofNat_or_low (k := 22) (by omega) (by omega), ← ofNat_or_low (k := 27) (by omega) (by omega),
    ← opcode_shifted, ← shiftLeft_eq_ofNat, ← shiftLeft_eq_ofNat, ← Operand.immFlag_shifted,
    BitVec.ofNat_toNat, BitVec.setWidth_eq]
  rfl

end

/-! ### The encoder's answer, layout by layout -/

section
variable {op : BitVec 5} (o1 o2 o3 : Operand)

theorem encoder_formatB : encoder 18#5 [o1] =
    if o1.isReg then .error .operandKindMismatch
    else if 2 ^ 27 ≤ o1.val.toNat then .error .fieldOverflow
    else .ok (BitVec.ofNat 32 (18 * 2 ^ 27 + o1.val.toNat)) := by
  rw [encoder_of_length (l := .formatB) rfl rfl]
  refine ite_congr (by simp [kindsOk]) (fun _ => rfl) fun hkind => ?_
  rw [if_neg (by simp [Operand.regOk, hkind])]
  refine ite_congr (by simp [fieldsFit, Operand.fits_eq_false_iff, hkind]) (fun _ => rfl) fun hfits => ?_
  exact congrArg Except.ok (pack_formatB (Nat.not_le.mp hfits))

theorem encoder_formatC (hop : op = 16#5 ∨ op = 17#5) : encoder op [o1, o2] =
    if o1.isReg = false ∨ o2.isReg = true then .error .operandKindMismatch
    else if 8 ≤ o1.val.toNat then .error .invalidRegister
    else if 2 ^ 22 ≤ o2.val.toNat then .error .fieldOverflow
    else .ok (BitVec.ofNat 32 (op.toNat * 2 ^ 27 + o1.val.toNat * 2 ^ 22 + o2.val.toNat)) := by
  rw [encoder_of_length (layoutOf_formatC hop) rfl]
  refine ite_congr (by simp [kindsOk, or_iff_not_imp_left]) (fun _ => rfl) fun hkinds => ?_
  simp only [not_or, Bool.not_eq_false, Bool.not_eq_true] at hkinds
  obtain ⟨hkind1, hkind2⟩ := hkinds
  refine ite_congr (by simp only [regsOk_eq_false, Operand.regOk_eq_false_iff, hkind1, hkind2, true_and, Bool.false_eq_true, false_and,
    List.all_nil, Bool.true_eq_false, or_false]) (fun _ => rfl) fun hreg => ?_
  refine ite_congr (by simp [fieldsFit, Operand.fits_eq_false_iff, hkind2]) (fun _ => rfl) fun hfits => ?_
  exact congrArg Except.ok (pack_formatC (Nat.not_le.mp hreg) (Nat.not_le.mp hfits))

theorem encoder_formatD : encoder 15#5 [o1, o2] =
    if o2.isReg = false then .error .operandKindMismatch
    else if (o1.isReg = true ∧ 8 ≤ o1.val.toNat) ∨ 8 ≤ o2.val.toNat then .error .invalidRegister
    else if o1.isReg = false ∧ 2 ^ 21 ≤ o1.val.toNat then .error .fieldOverflow
    else .ok (BitVec.ofNat 32 (15 * 2 ^ 27 + (if o1.isReg then 0 else 2 ^ 26) + o1.val.toNat * 2 ^ 5 +
      o2.val.toNat)) := by
  rw [encoder_of_length (l := .formatD) rfl rfl]
  refine ite_congr (by simp [kindsOk]) (fun _ => rfl) fun hkind => ?_
  rw [Bool.not_eq_false] at hkind
  refine ite_congr (by simp only [regsOk_eq_false, Operand.regOk_eq_false_iff, hkind, true_and,
    List.all_nil, Bool.true_eq_false, or_false]) (fun _ => rfl) fun hregs => ?_
  refine ite_congr (by simp [fieldsFit, Operand.fits_eq_false_iff]) (fun _ => rfl) fun hfits => ?_
  exact congrArg Except.ok (pack_formatD (by grind) (by grind))

theorem encoder_formatE (h1 : 1 ≤ op.toNat) (h14 : op.toNat ≤ 14) : encoder op [o1, o2, o3] =
    if o1.isReg = false ∨ o3.isReg = false then .error .operandKindMismatch
    else if 8 ≤ o1.val.toNat ∨ (o2.isReg = true ∧ 8 ≤ o2.val.toNat) ∨ 8 ≤ o3.val.toNat then
      .error .invalidRegister
    else if o2.isReg = false ∧ 2 ^ 16 ≤ o2.val.toNat then .error .fieldOverflow
    else .ok (BitVec.ofNat 32 (op.toNat * 2 ^ 27 + o1.val.toNat * 2 ^ 22 +
      (if o2.isReg then 0 else 2 ^ 21) + o2.val.toNat * 2 ^ 5 + o3.val.toNat)) := by
  rw [encoder_of_length (layoutOf_formatE h1 h14) rfl]
  refine ite_congr (by simp [kindsOk, or_iff_not_imp_left]) (fun _ => rfl) fun hkinds => ?_
  simp only [not_or, Bool.not_eq_false] at hkinds
  obtain ⟨hkind1, hkind3⟩ := hkinds
  refine ite_congr (by simp only [regsOk_eq_false, Operand.regOk_eq_false_iff, hkind1, hkind3, true_and,
    List.all_nil, Bool.true_eq_false, or_false]) (fun _ => rfl) fun hregs => ?_
  refine ite_congr (by simp [fieldsFit, Operand.fits_eq_false_iff]) (fun _ => rfl) fun hfits => ?_
  exact congrArg Except.ok (pack_formatE (by grind) (by grind) (by grind))

end

end Sys2Proof
end

section
/-! The encoder against the instructions (30_encoding.md R94 to R97): its answers for every input, its
agreement with the words of the instructions, and the fields of the words it answers. -/

namespace Sys2Proof

/-- Settles O8: no layout, then the count, then the rest of the checks and the packing per layout. -/
theorem encoderFollowsItsChecksAndPacking : Obligations.EncoderFollowsItsChecksAndPacking := by
  refine ⟨fun op ops h => encoder_of_layoutOf_none (layoutOf_of_ge h) ops, fun op ops h hne => ?_, rfl,
    encoder_formatB, fun op o1 o2 hop => encoder_formatC o1 o2 hop, encoder_formatD,
    fun op o1 o2 o3 h1 h14 => encoder_formatE o1 o2 o3 h1 h14⟩
  obtain ⟨l, hl, hcount⟩ := layoutOf_count h
  exact encoder_of_length_ne hl (hcount ▸ hne)

/-! ### The operands of an instruction -/

theorem regFieldOk_iff {w : Nat} (f : BitVec w) : regFieldOk f = true ↔ f.toNat < 8 := decide_eq_true_iff

theorem checkE_isNone_iff (ra : BitVec 5) (b : Src2) (rd : BitVec 5) :
    (checkE ra b rd).isNone = true ↔ regFieldOk ra = true ∧ b.ok = true ∧ regFieldOk rd = true := by
  unfold checkE
  cases regFieldOk ra <;> cases b.ok <;> cases regFieldOk rd <;> decide

theorem checkC_isNone_iff (ra : BitVec 5) : (checkC ra).isNone = true ↔ regFieldOk ra = true := by
  unfold checkC
  cases regFieldOk ra <;> decide

theorem checkD_isNone_iff (t : Target) (rd : BitVec 5) :
    (checkD t rd).isNone = true ↔ t.ok = true ∧ regFieldOk rd = true := by
  unfold checkD
  cases t.ok <;> cases regFieldOk rd <;> decide

section
variable {w : Nat} (f : BitVec w)

@[simp] theorem isReg_regOperand : (regOperand f).isReg = true := rfl

@[simp] theorem isReg_valOperand : (valOperand f).isReg = false := rfl

theorem val_regOperand (hw : w ≤ 32) : (regOperand f).val.toNat = f.toNat := BitVec.toNat_setWidth_of_le hw

theorem val_valOperand (hw : w ≤ 32) : (valOperand f).val.toNat = f.toNat := BitVec.toNat_setWidth_of_le hw

end

@[simp] theorem Src2.val_operand (b : Src2) : b.operand.val.toNat = b.op2.toNat := by
  cases b with
  | reg f => exact val_regOperand f (by decide)
  | lit f => exact val_valOperand f (by decide)

@[simp] theorem Target.val_operand (t : Target) : t.operand.val.toNat = t.tgt.toNat := by
  cases t with
  | reg f => exact val_regOperand f (by decide)
  | direct f => exact val_valOperand f (by decide)

/-- The imm-flag of a second operand's slot, at its place in a word. -/
theorem Src2.flag_operand (b : Src2) (n : Nat) :
    (if b.operand.isReg then 0 else n) = b.imm.toNat * n := by
  cases b <;> simp [operand, imm]

/-- The imm-flag of a target's slot, at its place in a word. -/
theorem Target.flag_operand (t : Target) (n : Nat) :
    (if t.operand.isReg then 0 else n) = t.immj.toNat * n := by
  cases t <;> simp [operand, immj]

/-- A second operand is refused by check 4 exactly where it is ill formed. -/
theorem Src2.ok_iff (b : Src2) : b.ok = true ↔ ¬ (b.operand.isReg = true ∧ 8 ≤ b.op2.toNat) := by
  cases b with
  | reg f => simp [ok, operand, op2, regFieldOk_iff]
  | lit f => simp [ok, operand]

/-- A target is refused by check 4 exactly where it is ill formed. -/
theorem Target.ok_iff (t : Target) : t.ok = true ↔ ¬ (t.operand.isReg = true ∧ 8 ≤ t.tgt.toNat) := by
  cases t with
  | reg f => simp [ok, operand, tgt, regFieldOk_iff]
  | direct f => simp [ok, operand]

/-! ### The encoder of an instruction's operands, layout by layout -/

/-- The word of a number is the word that has it. -/
theorem ofNat_eq_of_toNat {w : Word} {n : Nat} (h : w.toNat = n) : BitVec.ofNat 32 n = w := by
  rw [← h, BitVec.ofNat_toNat, BitVec.setWidth_eq]

section
variable {op : BitVec 5}

theorem encoder_fieldsE (h1 : 1 ≤ op.toNat) (h14 : op.toNat ≤ 14) (ra : BitVec 5) (b : Src2)
    (rd : BitVec 5) : encoder op [regOperand ra, b.operand, regOperand rd] =
      if (checkE ra b rd).isNone = true then .ok (wordE op ra b rd) else .error .invalidRegister := by
  have hwidth := b.op2.isLt
  have hcheck : (checkE ra b rd).isNone = true ↔
      ¬ (8 ≤ ra.toNat ∨ (b.operand.isReg = true ∧ 8 ≤ b.op2.toNat) ∨ 8 ≤ rd.toNat) := by
    rw [checkE_isNone_iff, regFieldOk_iff, regFieldOk_iff, b.ok_iff, not_or, not_or, Nat.not_le,
      Nat.not_le]
  have hword : BitVec.ofNat 32 (op.toNat * 2 ^ 27 + ra.toNat * 2 ^ 22 + b.imm.toNat * 2 ^ 21 +
      b.op2.toNat * 2 ^ 5 + rd.toNat) = wordE op ra b rd :=
    ofNat_eq_of_toNat (by rw [wordE_toNat]; omega)
  rw [encoder_formatE _ _ _ h1 h14, if_neg (by simp), val_regOperand ra (by decide), b.val_operand,
    val_regOperand rd (by decide), b.flag_operand, hword,
    if_neg (c := b.operand.isReg = false ∧ _) (by omega)]
  simp only [hcheck, ite_not]

theorem encoder_fieldsC (hop : op = 16#5 ∨ op = 17#5) (ra : BitVec 5) (addr : BitVec 22) :
    encoder op [regOperand ra, valOperand addr] =
      if (checkC ra).isNone = true then .ok (wordC op ra addr) else .error .invalidRegister := by
  have hwidth := addr.isLt
  have hcheck : (checkC ra).isNone = true ↔ ¬ 8 ≤ ra.toNat := by
    rw [checkC_isNone_iff, regFieldOk_iff, Nat.not_le]
  have hword : BitVec.ofNat 32 (op.toNat * 2 ^ 27 + ra.toNat * 2 ^ 22 + addr.toNat) =
      wordC op ra addr :=
    ofNat_eq_of_toNat (by rw [wordC_toNat]; omega)
  rw [encoder_formatC _ _ hop, if_neg (by simp), val_regOperand ra (by decide),
    val_valOperand addr (by decide), hword, if_neg (c := 2 ^ 22 ≤ addr.toNat) (by omega)]
  simp only [hcheck, ite_not]

theorem encoder_fieldsD (t : Target) (rd : BitVec 5) :
    encoder 15#5 [t.operand, regOperand rd] =
      if (checkD t rd).isNone = true then .ok (wordD 15#5 t rd) else .error .invalidRegister := by
  have hwidth := t.tgt.isLt
  have hcheck : (checkD t rd).isNone = true ↔
      ¬ ((t.operand.isReg = true ∧ 8 ≤ t.tgt.toNat) ∨ 8 ≤ rd.toNat) := by
    rw [checkD_isNone_iff, regFieldOk_iff, t.ok_iff, not_or, Nat.not_le]
  have hword : BitVec.ofNat 32 (15 * 2 ^ 27 + t.immj.toNat * 2 ^ 26 + t.tgt.toNat * 2 ^ 5 + rd.toNat) =
      wordD 15#5 t rd :=
    ofNat_eq_of_toNat (by rw [wordD_toNat, show (15#5).toNat = 15 from rfl]; omega)
  rw [encoder_formatD, if_neg (by simp), t.val_operand, val_regOperand rd (by decide), t.flag_operand,
    hword, if_neg (c := t.operand.isReg = false ∧ _) (by omega)]
  simp only [hcheck, ite_not]

theorem encoder_fieldsB (num : BitVec 27) : encoder 18#5 [valOperand num] = .ok (wordB 18#5 num) := by
  have hwidth := num.isLt
  rw [encoder_formatB, isReg_valOperand, if_neg Bool.false_ne_true, val_valOperand num (by decide),
    if_neg (Nat.not_le.mpr hwidth)]
  exact congrArg Except.ok (ofNat_eq_of_toNat (wordB_toNat 18#5 num))

end

/-- Settles O7, layout by layout. -/
theorem encoderAgreesWithInstructionWords : Obligations.EncoderAgreesWithInstructionWords := by
  intro i
  cases i with
  | stop => rfl
  | jmp t rd => exact encoder_fieldsD t rd
  | braz ra addr => exact encoder_fieldsC (.inl rfl) ra addr
  | branz ra addr => exact encoder_fieldsC (.inr rfl) ra addr
  | scall num => exact encoder_fieldsB num
  | _ => exact encoder_fieldsE (by simp [Instr.opcode]) (by simp [Instr.opcode]) _ _ _

/-! ### The operands and the word of an answer, layout by layout -/

section
variable {op : BitVec 5} {ops : List Operand} {w : Word}

/-- What the encoder has checked of the operands when it answers, its layout given. -/
theorem encoder_ok_checked {l : Layout} (hl : layoutOf op = some l) (h : encoder op ops = .ok w) :
    ops.length = l.count ∧ kindsOk l ops = true ∧ (∀ o ∈ ops, o.regOk = true) ∧
      fieldsFit l ops = true ∧ pack op l ops = w := by
  obtain ⟨l', hl', hlength, hkinds, hregs, hfits, hpack⟩ := encoder_eq_ok_iff.mp h
  obtain rfl := Option.some.inj (hl.symm.trans hl')
  exact ⟨hlength, hkinds, List.all_eq_true.mp hregs, hfits, hpack⟩

theorem encoder_ok_formatB (h : encoder 18#5 ops = .ok w) :
    ∃ o1, ops = [o1] ∧ o1.val.toNat < 2 ^ 27 ∧ w.toNat = 18 * 2 ^ 27 + o1.val.toNat := by
  obtain ⟨hlength, -, hregs, hfits, rfl⟩ := encoder_ok_checked (l := .formatB) rfl h
  obtain ⟨o1, rfl⟩ := List.length_eq_one_iff.mp hlength
  have h1 : o1.val.toNat < 2 ^ 27 := Operand.val_lt_of_fits (by decide) (hregs o1 (by simp)) hfits
  refine ⟨o1, rfl, h1, ?_⟩
  rw [pack_formatB h1, BitVec.toNat_ofNat, show (18#5).toNat = 18 from rfl]
  omega

theorem encoder_ok_formatC (hop : op = 16#5 ∨ op = 17#5) (h : encoder op ops = .ok w) :
    ∃ o1 o2, ops = [o1, o2] ∧ o1.val.toNat < 8 ∧ o2.val.toNat < 2 ^ 22 ∧
      w.toNat = op.toNat * 2 ^ 27 + o1.val.toNat * 2 ^ 22 + o2.val.toNat := by
  obtain ⟨hlength, hkinds, hregs, hfits, rfl⟩ := encoder_ok_checked (layoutOf_formatC hop) h
  obtain ⟨o1, o2, rfl⟩ := List.length_eq_two.mp hlength
  obtain ⟨hkind1, -⟩ := Bool.and_eq_true_iff.mp hkinds
  have h1 : o1.val.toNat < 8 := Operand.val_lt_of_isReg hkind1 (hregs o1 (by simp))
  have h2 : o2.val.toNat < 2 ^ 22 := Operand.val_lt_of_fits (by decide) (hregs o2 (by simp)) hfits
  have hop' := op.isLt
  refine ⟨o1, o2, rfl, h1, h2, ?_⟩
  rw [pack_formatC h1 h2, BitVec.toNat_ofNat]
  omega

theorem encoder_ok_formatD (h : encoder 15#5 ops = .ok w) :
    ∃ o1 o2, ops = [o1, o2] ∧ (o1.isReg = true → o1.val.toNat < 8) ∧ o1.val.toNat < 2 ^ 21 ∧
      o2.val.toNat < 8 ∧
      w.toNat = 15 * 2 ^ 27 + (if o1.isReg then 0 else 2 ^ 26) + o1.val.toNat * 2 ^ 5 + o2.val.toNat := by
  obtain ⟨hlength, hkind2, hregs, hfits, rfl⟩ := encoder_ok_checked (l := .formatD) rfl h
  obtain ⟨o1, o2, rfl⟩ := List.length_eq_two.mp hlength
  have hreg1 := hregs o1 (by simp)
  have h1 : o1.val.toNat < 2 ^ 21 := Operand.val_lt_of_fits (by decide) hreg1 hfits
  have h2 : o2.val.toNat < 8 := Operand.val_lt_of_isReg hkind2 (hregs o2 (by simp))
  refine ⟨o1, o2, rfl, fun hkind1 => Operand.val_lt_of_isReg hkind1 hreg1, h1, h2, ?_⟩
  rw [pack_formatD h1 h2, BitVec.toNat_ofNat, show (15#5).toNat = 15 from rfl]
  split_ifs <;> omega

theorem encoder_ok_formatE (hop1 : 1 ≤ op.toNat) (hop14 : op.toNat ≤ 14) (h : encoder op ops = .ok w) :
    ∃ o1 o2 o3, ops = [o1, o2, o3] ∧ o1.val.toNat < 8 ∧ (o2.isReg = true → o2.val.toNat < 8) ∧
      o2.val.toNat < 2 ^ 16 ∧ o3.val.toNat < 8 ∧
      w.toNat = op.toNat * 2 ^ 27 + o1.val.toNat * 2 ^ 22 + (if o2.isReg then 0 else 2 ^ 21) +
        o2.val.toNat * 2 ^ 5 + o3.val.toNat := by
  obtain ⟨hlength, hkinds, hregs, hfits, rfl⟩ := encoder_ok_checked (layoutOf_formatE hop1 hop14) h
  obtain ⟨o1, o2, o3, rfl⟩ := List.length_eq_three.mp hlength
  obtain ⟨hkind1, hkind3⟩ := Bool.and_eq_true_iff.mp hkinds
  have hreg2 := hregs o2 (by simp)
  have h1 : o1.val.toNat < 8 := Operand.val_lt_of_isReg hkind1 (hregs o1 (by simp))
  have h2 : o2.val.toNat < 2 ^ 16 := Operand.val_lt_of_fits (by decide) hreg2 hfits
  have h3 : o3.val.toNat < 8 := Operand.val_lt_of_isReg hkind3 (hregs o3 (by simp))
  refine ⟨o1, o2, o3, rfl, h1, fun hkind2 => Operand.val_lt_of_isReg hkind2 hreg2, h2, h3, ?_⟩
  rw [pack_formatE h1 h2 h3, BitVec.toNat_ofNat]
  split_ifs <;> omega

end

/-! ### The fields of an answer -/

section
variable {op : BitVec 5} {ops : List Operand} {w : Word}

theorem encoder_ok_fieldsB (h : encoder 18#5 ops = .ok w) :
    ∃ o1, ops = [o1] ∧ (decodeFields w).num.toNat = o1.val.toNat := by
  obtain ⟨o1, rfl, h1, hw⟩ := encoder_ok_formatB h
  refine ⟨o1, rfl, ?_⟩
  simp only [decodeFields, toNat_slice, hw]
  omega

/-- The register of a branch the encoder answers is one of the eight. -/
theorem encoder_ok_fieldsC (hop : op = 16#5 ∨ op = 17#5) (h : encoder op ops = .ok w) :
    ∃ o1 o2, ops = [o1, o2] ∧ o1.val.toNat < 8 ∧ (decodeFields w).ra.toNat = o1.val.toNat ∧
      (decodeFields w).addr.toNat = o2.val.toNat := by
  obtain ⟨o1, o2, rfl, h1, h2, hw⟩ := encoder_ok_formatC hop h
  refine ⟨o1, o2, rfl, h1, ?_, ?_⟩ <;> simp only [decodeFields, toNat_slice, hw] <;> omega

/-- The registers of a jump the encoder answers are among the eight. -/
theorem encoder_ok_fieldsD (h : encoder 15#5 ops = .ok w) :
    ∃ o1 o2, ops = [o1, o2] ∧ (o1.isReg = true → o1.val.toNat < 8) ∧ o2.val.toNat < 8 ∧
      (decodeFields w).immj.toNat = (if o1.isReg then 0 else 1) ∧
      (decodeFields w).tgt.toNat = o1.val.toNat ∧ (decodeFields w).rd.toNat = o2.val.toNat := by
  obtain ⟨o1, o2, rfl, hreg1, h1, h2, hw⟩ := encoder_ok_formatD h
  refine ⟨o1, o2, rfl, hreg1, h2, ?_, ?_, ?_⟩ <;> simp only [decodeFields, toNat_slice, hw] <;>
    split_ifs <;> omega

/-- The registers of a format E word the encoder answers are among the eight. -/
theorem encoder_ok_fieldsE (hop1 : 1 ≤ op.toNat) (hop14 : op.toNat ≤ 14) (h : encoder op ops = .ok w) :
    ∃ o1 o2 o3, ops = [o1, o2, o3] ∧ o1.val.toNat < 8 ∧ (o2.isReg = true → o2.val.toNat < 8) ∧
      o3.val.toNat < 8 ∧ (decodeFields w).ra.toNat = o1.val.toNat ∧
      (decodeFields w).imm.toNat = (if o2.isReg then 0 else 1) ∧
      (decodeFields w).op2.toNat = o2.val.toNat ∧ (decodeFields w).rd.toNat = o3.val.toNat := by
  obtain ⟨o1, o2, o3, rfl, h1, hreg2, h2, h3, hw⟩ := encoder_ok_formatE hop1 hop14 h
  refine ⟨o1, o2, o3, rfl, h1, hreg2, h3, ?_, ?_, ?_, ?_⟩ <;>
    simp only [decodeFields, toNat_slice, hw] <;> split_ifs <;> omega

end

/-- Settles O9: the opcode by `opc_of_encoder_ok`, the other fields layout by layout. -/
theorem encoderOutputDecodesToItsOperands : Obligations.EncoderOutputDecodesToItsOperands := by
  intro op ops w h
  obtain ⟨hopc, -⟩ := opc_of_encoder_ok h
  refine ⟨hopc, fun h0 => ?_, fun hB => ?_, fun hC => ?_, fun hD => ?_, fun ⟨h1, h14⟩ => ?_⟩
  · obtain rfl : op = 0#5 := BitVec.eq_of_toNat_eq h0
    obtain ⟨hlength, -⟩ := encoder_ok_checked (l := .formatA) rfl h
    exact List.length_eq_zero_iff.mp hlength
  · obtain rfl : op = 18#5 := BitVec.eq_of_toNat_eq hB
    exact encoder_ok_fieldsB h
  · obtain ⟨o1, o2, hops, -, hfields⟩ :=
      encoder_ok_fieldsC (hC.imp BitVec.eq_of_toNat_eq BitVec.eq_of_toNat_eq) h
    exact ⟨o1, o2, hops, hfields⟩
  · obtain rfl : op = 15#5 := BitVec.eq_of_toNat_eq hD
    obtain ⟨o1, o2, hops, -, -, hfields⟩ := encoder_ok_fieldsD h
    exact ⟨o1, o2, hops, hfields⟩
  · obtain ⟨o1, o2, o3, hops, -, -, -, hfields⟩ := encoder_ok_fieldsE h1 h14 h
    exact ⟨o1, o2, o3, hops, hfields⟩

end Sys2Proof
end

section
/-! No index fault from the encoder's words (30_encoding.md R98): they decode to well-formed instructions, and
a well-formed instruction raises no RegisterIndexOutOfRange. -/

namespace Sys2Proof

/-! ### The encoder's words decode to well-formed instructions -/

/-- An instruction read from fields whose registers are among the eight is well formed. -/
theorem Decoded.wellFormed_of_instr {d : Decoded} {i : Instr} (h : d.instr = .ok i)
    (hE : 1 ≤ d.opc.toNat → d.opc.toNat ≤ 14 → (checkE d.ra d.src2 d.rd).isNone = true)
    (hC : d.opc.toNat = 16 ∨ d.opc.toNat = 17 → (checkC d.ra).isNone = true)
    (hD : d.opc.toNat = 15 → (checkD d.target d.rd).isNone = true) : i.wellFormed = true := by
  unfold Decoded.instr at h
  split at h <;> cases h
  case h_1 => rfl
  case h_16 hop => exact hD hop
  case h_17 hop => exact hC (.inl hop)
  case h_18 hop => exact hC (.inr hop)
  case h_19 => rfl
  all_goals exact hE (by omega) (by omega)

/-- A second operand whose register form is below 8 is well formed. -/
theorem Decoded.src2_ok {d : Decoded} {isReg : Bool} (himm : d.imm.toNat = if isReg then 0 else 1)
    (hreg : isReg = true → d.op2.toNat < 8) : d.src2.ok = true := by
  cases isReg with
  | true =>
    have hzero : d.imm = 0#1 := BitVec.eq_of_toNat_eq himm
    rw [src2, hzero, if_neg (by decide)]
    exact (regFieldOk_iff d.op2).mpr (hreg rfl)
  | false =>
    have hone : d.imm = 1#1 := BitVec.eq_of_toNat_eq himm
    rw [src2, if_pos hone]
    rfl

/-- A jump target whose register form is below 8 is well formed. -/
theorem Decoded.target_ok {d : Decoded} {isReg : Bool} (himmj : d.immj.toNat = if isReg then 0 else 1)
    (hreg : isReg = true → d.tgt.toNat < 8) : d.target.ok = true := by
  cases isReg with
  | true =>
    have hzero : d.immj = 0#1 := BitVec.eq_of_toNat_eq himmj
    rw [target, hzero, if_neg (by decide)]
    exact (regFieldOk_iff d.tgt).mpr (hreg rfl)
  | false =>
    have hone : d.immj = 1#1 := BitVec.eq_of_toNat_eq himmj
    rw [target, if_pos hone]
    rfl

/-- Every word the encoder answers decodes, to a well-formed instruction. -/
theorem encoder_ok_wellFormed {op : BitVec 5} {ops : List Operand} {w : Word}
    (h : encoder op ops = .ok w) : ∃ i, decodeWord w = .ok i ∧ i.wellFormed = true := by
  obtain ⟨hopc, hle⟩ := opc_of_encoder_ok h
  have hword : w.toNat / 2 ^ 27 = op.toNat := by rw [← decodeFields_opc_toNat, hopc]
  obtain ⟨i, hi⟩ := decodeWord_ok_of_opcode_le w (hword ▸ hle)
  refine ⟨i, hi, Decoded.wellFormed_of_instr hi ?_ ?_ ?_⟩ <;> rw [hopc]
  · intro h1 h14
    obtain ⟨o1, o2, o3, -, h1', h2, h3, hra, himm, hop2, hrd⟩ := encoder_ok_fieldsE h1 h14 h
    rw [checkE_isNone_iff, regFieldOk_iff, regFieldOk_iff, hra, hrd]
    exact ⟨h1', Decoded.src2_ok himm (hop2 ▸ h2), h3⟩
  · intro hC
    obtain ⟨o1, o2, -, h1, hra, -⟩ :=
      encoder_ok_fieldsC (hC.imp BitVec.eq_of_toNat_eq BitVec.eq_of_toNat_eq) h
    rw [checkC_isNone_iff, regFieldOk_iff, hra]
    exact h1
  · intro hD
    obtain rfl : op = 15#5 := BitVec.eq_of_toNat_eq hD
    obtain ⟨o1, o2, -, h1, h2, himmj, htgt, hrd⟩ := encoder_ok_fieldsD h
    rw [checkD_isNone_iff, regFieldOk_iff, hrd]
    exact ⟨Decoded.target_ok himmj (htgt ▸ h1), h2⟩

namespace Machine

/-! ### A well-formed instruction raises no index fault -/

/-- A checked register field names a register. -/
theorem regIdx_ne_error {w : Nat} {f : BitVec w} (hf : regFieldOk f = true) (e : Trap) :
    regIdx f ≠ .error e := by
  intro he
  obtain ⟨hge, -⟩ := (regIdx_error_iff f e).mp he
  exact absurd ((regFieldOk_iff f).mp hf) (Nat.not_lt.mpr hge)

section
variable {s : State}

/-- A well-formed ALU instruction raises only as its operation does. -/
theorem State.alu_error_of_check {f : Word → Word → Except Trap Word} {ra rd : BitVec 5} {b : Src2}
    (hcheck : (checkE ra b rd).isNone = true) {e : Trap} (h : s.alu f ra b rd = .error e) :
    ∃ va vb, f va vb = .error e := by
  obtain ⟨hra, hb, hrd⟩ := (checkE_isNone_iff ra b rd).mp hcheck
  rcases s.alu_error f ra b rd e h with h | h | h | h
  · exact absurd (s.readField_error ra e h) (regIdx_ne_error hra e)
  · obtain ⟨field, rfl, hfield⟩ := s.src2_error b e h
    exact absurd hfield (regIdx_ne_error hb e)
  · exact absurd h (regIdx_ne_error hrd e)
  · exact h

/-- A well-formed branch does not raise. -/
theorem State.branch_ne_error {p : Word → Bool} {ra : BitVec 5} {addr : BitVec 22}
    (hcheck : (checkC ra).isNone = true) (e : Trap) : s.branch p ra addr ≠ .error e :=
  fun h => regIdx_ne_error ((checkC_isNone_iff ra).mp hcheck) e
    (s.readField_error ra e (s.branch_error p ra addr e h))

/-- A well-formed jump does not raise. -/
theorem State.jump_ne_error {tg : Target} {rd : BitVec 5} (hcheck : (checkD tg rd).isNone = true)
    (e : Trap) : s.jump tg rd ≠ .error e := by
  intro h
  obtain ⟨htg, hrd⟩ := (checkD_isNone_iff tg rd).mp hcheck
  rcases s.jump_error tg rd e h with h | ⟨field, rfl, hfield⟩
  · exact regIdx_ne_error hrd e h
  · exact regIdx_ne_error htg e hfield

/-- The cause after an instruction is its result's, or the one it raises. -/
theorem State.complete_faultCause_ne {t : State} {r : Except Trap State} {c : FaultCause}
    (h : s.complete r = .next t) (hok : ∀ u, r = .ok u → u.faultCause ≠ c)
    (herror : ∀ e, r = .error e → e.cause ≠ c) : t.faultCause ≠ c := by
  rcases (s.complete_next_iff t r).mp h with hr | ⟨e, hr, rfl⟩
  · exact hok t hr
  · exact herror e hr

variable {t : State} (hbefore : s.faultCause ≠ .registerIndexOutOfRange)
include hbefore

theorem State.alu_no_index_fault {f : Word → Word → Except Trap Word} (hf : NoIndexFault f)
    {ra rd : BitVec 5} {b : Src2} (hcheck : (checkE ra b rd).isNone = true)
    (h : s.complete (s.alu f ra b rd) = .next t) : t.faultCause ≠ .registerIndexOutOfRange := by
  refine complete_faultCause_ne h (fun u hu => ?_) (fun e he => ?_)
  · obtain ⟨_, _, _, _, -, -, -, -, rfl⟩ := s.alu_ok u f ra b rd hu
    exact hbefore
  · obtain ⟨va, vb, hop⟩ := alu_error_of_check hcheck he
    exact hf va vb e hop

theorem State.branch_no_index_fault {p : Word → Bool} {ra : BitVec 5} {addr : BitVec 22}
    (hcheck : (checkC ra).isNone = true) (h : s.complete (s.branch p ra addr) = .next t) :
    t.faultCause ≠ .registerIndexOutOfRange := by
  refine complete_faultCause_ne h (fun u hu => ?_) (fun e he => absurd he (branch_ne_error hcheck e))
  obtain ⟨v, -, rfl⟩ := s.branch_ok u p ra addr hu
  split_ifs <;> exact hbefore

theorem State.jump_no_index_fault {tg : Target} {rd : BitVec 5}
    (hcheck : (checkD tg rd).isNone = true) (h : s.complete (s.jump tg rd) = .next t) :
    t.faultCause ≠ .registerIndexOutOfRange := by
  refine complete_faultCause_ne h (fun u hu => ?_) (fun e he => absurd he (jump_ne_error hcheck e))
  obtain ⟨_, _, -, rfl⟩ := s.jump_ok u tg rd hu
  exact hbefore

end

/-- An ALU instruction is well formed where its three fields are. -/
theorem AluForm.check_of_wellFormed {mk : BitVec 5 → Src2 → BitVec 5 → Instr} (h : AluForm mk)
    {ra rd : BitVec 5} {b : Src2} (hwf : (mk ra b rd).wellFormed = true) :
    (checkE ra b rd).isNone = true := by
  rcases h with rfl | rfl | rfl | rfl | rfl | rfl | rfl | rfl | rfl | rfl | rfl | rfl <;> exact hwf

/-- A well-formed instruction does not make the record RegisterIndexOutOfRange: only the ALU instructions
and the transfers check an index. -/
theorem exec_wellFormed_no_index_fault {i : Instr} {s t : State} (hwf : i.wellFormed = true)
    (h : exec i s = .next t) (hbefore : s.faultCause ≠ .registerIndexOutOfRange) :
    t.faultCause ≠ .registerIndexOutOfRange := by
  rcases exec_faultCause h with hkept | ⟨e, he, hcause⟩
  · rwa [hkept]
  rcases he with ⟨-, -, -, ⟨mk, ra, b, rd, hmk, rfl⟩ | ⟨tg, rd, rfl⟩ | ⟨ra, addr, rfl⟩ | ⟨ra, addr, rfl⟩⟩ |
    ⟨hdiv, -⟩ | ⟨hshift, -⟩
  · obtain ⟨f, hrun, hf⟩ := hmk.runsAlu
    rw [hrun] at h
    exact State.alu_no_index_fault hbefore hf (hmk.check_of_wellFormed hwf) h
  · exact State.jump_no_index_fault hbefore hwf h
  · exact State.branch_no_index_fault hbefore hwf h
  · exact State.branch_no_index_fault hbefore hwf h
  · rw [hcause, hdiv]
    nofun
  · rw [hcause, hshift]
    nofun

/-- Settles O10: the word is a well-formed instruction's. -/
theorem encodedWordsRaiseNoIndexFault : Obligations.EncodedWordsRaiseNoIndexFault := by
  intro op ops w s h hbefore
  obtain ⟨i, hi, hwf⟩ := encoder_ok_wellFormed h
  obtain ⟨t, ht⟩ := exec_answers_next i s
  exact ⟨t, (executeWord_of_ok hi s).trans ht, exec_wellFormed_no_index_fault hwf ht hbefore⟩

end Machine
end Sys2Proof
end

section
/-! Control transfer, `stop`, the emitting instructions, reset and the ports (45_control.md, 41_stop.md,
44_load_store.md, 46_scall.md, 70_reset_and_hazards.md section 1, 60_exceptions.md R200, R207). -/

namespace Sys2Proof.Machine

/-! ### `jmp` (45_control.md R180) -/

theorem exec_jmp (tg : Target) (rd : BitVec 5) (s : State) :
    exec (.jmp tg rd) s = s.complete (s.jump tg rd) := rfl

/-- Settles O38: the link's index is checked before the target's. -/
theorem jmpIndexFaultsInOrder : Obligations.JmpIndexFaultsInOrder := by
  intro s tg rd
  rw [exec_jmp]
  refine ⟨fun hrd => State.complete_error_takesFault ?_,
    fun f hrd htg hf => State.complete_error_takesFault ?_⟩
  · rw [State.jump, regIdx_of_ge hrd]
  · subst htg
    rw [State.jump, (regIdx_ok_iff rd ⟨rd.toNat, hrd⟩).mpr rfl]
    simp only [regIdx_of_ge hf]

/-- What linking through `x[j]` and jumping to `v` leaves: the link, `pc`, and everything else. -/
theorem State.link_and_jump (s : State) (j : Fin 8) (v : Word) :
    ((s.writeReg j s.pc).setPc v).readReg j = s.pc ∧
      (∀ r : Fin 8, r ≠ j → ((s.writeReg j s.pc).setPc v).readReg r = s.readReg r) ∧
      ((s.writeReg j s.pc).setPc v).pc = v ∧ SameStatus s ((s.writeReg j s.pc).setPc v) ∧
      ((s.writeReg j s.pc).setPc v).events = s.events ∧
      SameProgram s ((s.writeReg j s.pc).setPc v) :=
  ⟨s.readReg_writeReg_same j s.pc, fun r hr => s.readReg_writeReg_other j r s.pc hr, rfl,
    ⟨rfl, rfl, rfl, rfl, rfl⟩, rfl, .of_eq rfl rfl⟩

/-- Settles O44: a direct target is zero-extended. -/
theorem jmpDirectLinksAndJumps : Obligations.JmpDirectLinksAndJumps := by
  intro s a rd j hrd
  obtain ⟨hlink, hregs, hpc, hrest⟩ := s.link_and_jump j (a.setWidth 32)
  refine ⟨_, ?_, hlink, hregs, ?_, hrest⟩
  · rw [exec_jmp, State.jump, (regIdx_ok_iff rd j).mpr hrd]
    rfl
  · rw [hpc, BitVec.toNat_setWidth_of_le (by decide)]

/-- Settles O45: the target register is read after the link is written, so it reads the link where the two
are one register. -/
theorem jmpThroughRegisterReadsAfterTheLink : Obligations.JmpThroughRegisterReadsAfterTheLink := by
  intro s f rd i j hf hrd
  obtain ⟨hlink, hregs, hpc, hrest⟩ := s.link_and_jump j ((s.writeReg j s.pc).readReg i)
  refine ⟨_, ?_, hlink, hregs, hpc.trans ?_, hrest⟩
  · rw [exec_jmp, State.jump, (regIdx_ok_iff rd j).mpr hrd]
    simp only [(regIdx_ok_iff f i).mpr hf]
    rfl
  · split_ifs with hij
    · rw [hij, State.readReg_writeReg_same]
    · exact s.readReg_writeReg_other j i s.pc hij

/-! ### Branches (45_control.md R181, R182) -/

theorem exec_braz (ra : BitVec 5) (addr : BitVec 22) (s : State) :
    exec (.braz ra addr) s = s.complete (s.branch condZero ra addr) := rfl

theorem exec_branz (ra : BitVec 5) (addr : BitVec 22) (s : State) :
    exec (.branz ra addr) s = s.complete (s.branch (fun v => !condZero v) ra addr) := rfl

/-- A branch on a register field of 8 or more raises, taken or not. -/
theorem State.branch_takesFault (s : State) (p : Word → Bool) {ra : BitVec 5} (addr : BitVec 22)
    (hra : 8 ≤ ra.toNat) : ∃ t, s.complete (s.branch p ra addr) = .next t ∧
      TakesFault s t .registerIndexOutOfRange (BitVec.ofNat 32 ra.toNat) := by
  refine complete_error_takesFault ?_
  rw [branch, s.readField_error_of_ge hra]

/-- Settles O39: the index is checked whether or not the branch is taken. -/
theorem branchIndexFaults : Obligations.BranchIndexFaults := by
  intro s ra addr hra
  rw [exec_braz, exec_branz]
  exact ⟨s.branch_takesFault _ addr hra, s.branch_takesFault _ addr hra⟩

/-- Writing `pc` changes nothing else. -/
theorem State.setsPcOnly_setPc (s : State) (v : Word) : SetsPcOnly s (s.setPc v) v :=
  ⟨s.setPc_pc v, s.readReg_setPc v, ⟨rfl, rfl, rfl, rfl, rfl⟩, s.setPc_events v, .of_eq rfl rfl⟩

/-- Doing nothing keeps `pc` and everything else. -/
theorem SetsPcOnly.refl (s : State) : SetsPcOnly s s s.pc :=
  ⟨rfl, fun _ => rfl, ⟨rfl, rfl, rfl, rfl, rfl⟩, rfl, .refl s⟩

/-- A branch on `x[i]` goes to its address where its condition holds of `x[i]`, and on to the next word
where it does not. -/
theorem State.branch_setsPcOnly (s : State) {p : Word → Bool} {q : Prop} [Decidable q] {ra : BitVec 5}
    (addr : BitVec 22) {i : Fin 8} (hra : ra.toNat = i.val) (hp : p (s.readReg i) = true ↔ q) :
    ∃ t, s.complete (s.branch p ra addr) = .next t ∧
      SetsPcOnly s t (if q then BitVec.ofNat 32 addr.toNat else s.pc) := by
  refine ⟨if q then s.setPc (addr.setWidth 32) else s, ?_, ?_⟩
  · simp only [branch, s.readField_of_eq ra i hra, hp, complete]
  · split_ifs
    · rw [BitVec.ofNat_toNat]
      exact s.setsPcOnly_setPc _
    · exact .refl s

theorem condZero_iff (v : Word) : condZero v = true ↔ v = 0#32 := decide_eq_true_iff

/-- Settles O46: `braz` tests for zero. -/
theorem brazBranchesOnZero : Obligations.BrazBranchesOnZero := by
  intro s ra addr i hra
  rw [exec_braz]
  exact s.branch_setsPcOnly addr hra (condZero_iff (s.readReg i))

/-- Settles O47: `branz` tests for anything else. -/
theorem branzBranchesOnNonzero : Obligations.BranzBranchesOnNonzero := by
  intro s ra addr i hra
  rw [exec_branz]
  refine s.branch_setsPcOnly addr hra ?_
  rw [Bool.not_eq_true', ← Bool.not_eq_true, condZero_iff]

/-! ### `stop` and the emitting instructions -/

/-- Settles O40: `stop` is a halt, and the encoder gives it the zero word. -/
theorem stopHalts : Obligations.StopHalts :=
  ⟨fun s => ⟨_, exec_stop s, s.haltsWith_halt .stop⟩, rfl⟩

/-- Emitting appends the event and changes nothing else (10_state.md R30). -/
theorem State.emitsOnly_emit (s : State) (e : Event) : EmitsOnly s (s.emit e) e :=
  ⟨s.emit_events e, s.readReg_emit e, s.emit_pc e, ⟨rfl, rfl, rfl, rfl, rfl⟩, .of_eq rfl rfl⟩

/-- Settles O41: either operand form goes into the diagnostic as it is. -/
theorem loadOnlyEmitsItsDiagnostic : Obligations.LoadOnlyEmitsItsDiagnostic :=
  ⟨encodedAsE_load, fun s _ _ _ => ⟨⟨_, rfl, s.emitsOnly_emit _⟩, ⟨_, rfl, s.emitsOnly_emit _⟩⟩⟩

/-- Settles O42: either operand form goes into the diagnostic as it is. -/
theorem storeOnlyEmitsItsDiagnostic : Obligations.StoreOnlyEmitsItsDiagnostic :=
  ⟨encodedAsE_store, fun s _ _ _ => ⟨⟨_, rfl, s.emitsOnly_emit _⟩, ⟨_, rfl, s.emitsOnly_emit _⟩⟩⟩

/-- Settles O43: opcode 18 decodes to `scall` of the low bits; the encoder wants a value. -/
theorem scallOnlyEmitsItsNumber : Obligations.ScallOnlyEmitsItsNumber := by
  refine ⟨fun w hopc => ?_, fun s _ => ⟨_, rfl, s.emitsOnly_emit _⟩, fun v => ?_⟩
  · exact Decoded.instr_scall (BitVec.eq_of_toNat_eq ((decodeFields_opc_toNat w).trans hopc))
  · rw [encoder_formatB]
    rfl

/-! ### Reset and the ports -/

/-- Settles O51: reset clears what it does not keep. -/
theorem resetClearsTheRecordsAndKeepsTheProgram : Obligations.ResetClearsTheRecordsAndKeepsTheProgram :=
  fun s => ⟨s.applyReset_haltCause,
    ⟨s.applyReset_faultCause, s.applyReset_faultInfo, s.applyReset_faultAddr⟩, s.applyReset_events,
    .of_eq s.applyReset_prog s.applyReset_progLen, rfl⟩

/-- Settles O59: the codes, one value of each enumeration at a time. -/
theorem statusPortsCarryTheStatedCodes : Obligations.StatusPortsCarryTheStatedCodes := by
  intro s
  refine ⟨?_, ?_, ?_, rfl, rfl, rfl, rfl, rfl⟩
  · change s.run.code.toNat = _
    cases s.run <;> rfl
  · change s.haltCause.code.toNat = _
    cases s.haltCause <;> rfl
  · change s.faultCause.code.toNat = _
    cases s.faultCause <;> rfl

end Sys2Proof.Machine
end

section
/-! Loading a program (20_memory.md R40, 70_reset_and_hazards.md R230 to R234): every word reads back at its
index, the store holds no other word, and a booted machine satisfies the invariant and fetches word 0. -/

namespace Sys2Proof.Machine

/-! ### Words of the program store -/

/-- Cells outside the written ones read as before. -/
theorem Memory.readByte_writeBytes_outside {m : Memory} (hm : m.wf = true) (a : Nat) (vs : List Byte)
    {b : Nat} (hb : b < a ∨ a + vs.length ≤ b) : (m.writeBytes a vs).readByte b = m.readByte b := by
  induction vs generalizing m a with
  | nil => rfl
  | cons v vs ih =>
    rw [List.length_cons] at hb
    rw [writeBytes, ih (wf_writeByte m hm a v) (a + 1) (by omega), readByte_writeByte m hm,
      if_neg (by omega)]

/-- The written cells read what was written, in order. -/
theorem Memory.readByte_writeBytes_add {m : Memory} (hm : m.wf = true) (a : Nat) (vs : List Byte) (k : Nat)
    (hk : k < vs.length) : (m.writeBytes a vs).readByte (a + k) = vs[k] := by
  induction vs generalizing m a k with
  | nil => cases hk
  | cons v vs ih =>
    have hm' := wf_writeByte m hm a v
    cases k with
    | zero =>
      rw [Nat.add_zero, writeBytes,
        readByte_writeBytes_outside hm' (a + 1) vs (.inl (Nat.lt_succ_self a)),
        readByte_writeByte m hm, if_pos rfl]
      rfl
    | succ k =>
      rw [writeBytes, ← Nat.add_assoc, Nat.add_right_comm, ih hm' (a + 1) k (Nat.lt_of_succ_lt_succ hk)]
      rfl

/-- A placed word reads back. -/
theorem Memory.readWord_writeWord_same {m : Memory} (hm : m.wf = true) (a : Nat) (w : Word) :
    (m.writeWord a w).readWord a = w := by
  obtain ⟨b0, b1, b2, b3, hbytes, hword⟩ := bytesOfWord_spec storeOrder w
  have hread := readByte_writeBytes_add hm (4 * a) [b0, b1, b2, b3]
  have hread0 := hread 0 (by simp)
  rw [Nat.add_zero] at hread0
  rw [readWord, writeWord, hbytes, hread0, hread 1 (by simp), hread 2 (by simp), hread 3 (by simp)]
  exact hword

/-- Every other word reads as before. -/
theorem Memory.readWord_writeWord_other {m : Memory} (hm : m.wf = true) {a b : Nat} (h : b ≠ a)
    (w : Word) : (m.writeWord a w).readWord b = m.readWord b := by
  have hread : ∀ k, k < 4 → (m.writeWord a w).readByte (4 * b + k) = m.readByte (4 * b + k) := by
    intro k hk
    refine readByte_writeBytes_outside hm _ _ ?_
    rw [length_bytesOfWord]
    omega
  have hread0 := hread 0 (by decide)
  rw [Nat.add_zero] at hread0
  rw [readWord, readWord, hread0, hread 1 (by decide), hread 2 (by decide), hread 3 (by decide)]

/-- Placing words leaves the words below them as they were. -/
theorem Memory.readWord_writeWords_of_lt {m : Memory} (hm : m.wf = true) (a : Nat) (ws : List Word)
    {b : Nat} (hb : b < a) : (m.writeWords a ws).readWord b = m.readWord b := by
  induction ws generalizing m a with
  | nil => rfl
  | cons w ws ih =>
    rw [writeWords, ih (wf_writeWord m hm a w) (a + 1) (by omega), readWord_writeWord_other hm (by omega)]

/-- Placed words read back in their order. -/
theorem Memory.readWord_writeWords {m : Memory} (hm : m.wf = true) (a : Nat) (ws : List Word) (k : Nat)
    (hk : k < ws.length) : (m.writeWords a ws).readWord (a + k) = ws[k] := by
  induction ws generalizing m a k with
  | nil => cases hk
  | cons w ws ih =>
    have hm' := wf_writeWord m hm a w
    cases k with
    | zero =>
      rw [Nat.add_zero, writeWords, readWord_writeWords_of_lt hm' (a + 1) ws (Nat.lt_succ_self a)]
      exact readWord_writeWord_same hm a w
    | succ k =>
      rw [writeWords, ← Nat.add_assoc, Nat.add_right_comm, ih hm' (a + 1) k (Nat.lt_of_succ_lt_succ hk)]
      rfl

/-! ### The bound of the program store -/

theorem Memory.within_iff (m : Memory) (n : Nat) : m.within n = true ↔ ∀ c ∈ m, c.1 < 4 * n := by
  simp only [within, List.all_eq_true, decide_eq_true_eq]

/-- Bytes written below the bound keep it. -/
theorem Memory.within_writeBytes {m : Memory} {n : Nat} (hm : m.within n = true) (a : Nat)
    (vs : List Byte) (ha : a + vs.length ≤ 4 * n) : (m.writeBytes a vs).within n = true := by
  induction vs generalizing m a with
  | nil => exact hm
  | cons v vs ih =>
    rw [List.length_cons] at ha
    refine ih ?_ (a + 1) (by omega)
    rw [within_iff] at hm ⊢
    intro c hc
    rcases mem_writeByte m a v c hc with hnew | hold
    · omega
    · exact hm c hold

/-- Words placed below the bound keep it. -/
theorem Memory.within_writeWords {m : Memory} {n : Nat} (hm : m.within n = true) (a : Nat)
    (ws : List Word) (ha : a + ws.length ≤ n) : (m.writeWords a ws).within n = true := by
  induction ws generalizing m a with
  | nil => exact hm
  | cons w ws ih =>
    rw [List.length_cons] at ha
    refine ih (within_writeBytes hm _ _ ?_) (a + 1) (by omega)
    rw [length_bytesOfWord]
    omega

/-! ### Loading and booting -/

/-- What loading does, where the program is short enough (00_scope.md R2). -/
theorem State.loadProgram_eq_some_iff {s t : State} {ws : List Word} :
    s.loadProgram ws = some t ↔ ws.length ≤ Config.progLenMax ∧
      t = { s with prog := Memory.writeWords [] 0 ws, progLen := BitVec.ofNat 32 ws.length } := by
  rw [loadProgram, Option.ite_none_right_eq_some, Option.some.injEq, eq_comm (b := t)]

/-- Loading sets PROG_LEN to the number of words, which fits. -/
theorem State.progLen_of_loadProgram {s t : State} {ws : List Word} (h : s.loadProgram ws = some t) :
    t.progLen.toNat = ws.length := by
  obtain ⟨hlength, rfl⟩ := loadProgram_eq_some_iff.mp h
  rw [Config.progLenMax] at hlength
  rw [BitVec.toNat_ofNat, Nat.mod_eq_of_lt (by omega)]

/-- Loading puts the words at the indices from 0. -/
theorem State.readWord_of_loadProgram {s t : State} {ws : List Word} (h : s.loadProgram ws = some t)
    {a : Nat} (ha : a < ws.length) : t.prog.readWord a = ws[a] := by
  obtain ⟨-, rfl⟩ := loadProgram_eq_some_iff.mp h
  simpa using Memory.readWord_writeWords (m := []) rfl 0 ws a ha

/-- Loading leaves no cell at or beyond PROG_LEN (20_memory.md R48). -/
theorem State.within_of_loadProgram {s t : State} {ws : List Word} (h : s.loadProgram ws = some t) :
    t.prog.within t.progLen.toNat = true := by
  rw [progLen_of_loadProgram h]
  obtain ⟨-, rfl⟩ := loadProgram_eq_some_iff.mp h
  exact Memory.within_writeWords (m := []) rfl 0 ws (by omega)

/-- Settles O14: the words are placed from index 0, and their number fits in PROG_LEN. -/
theorem loadedProgramReadsBack : Obligations.LoadedProgramReadsBack :=
  fun _ _ _ h => ⟨State.progLen_of_loadProgram h, fun _ => State.readWord_of_loadProgram h⟩

/-- Booting is loading, then reset (70_reset_and_hazards.md R233). -/
theorem State.boot_eq_some_iff {s t : State} {ws : List Word} :
    s.boot ws = some t ↔ ∃ u, s.loadProgram ws = some u ∧ t = u.applyReset := by
  simp only [boot, Option.map_eq_some_iff, eq_comm (b := t)]

/-- The step of a running machine inside its program executes the fetched word. -/
theorem step_executes_fetched {s : State} (hrun : s.run = .running)
    (hpc : s.pc.toNat < s.progLen.toNat) :
    step s = executeWord (s.prog.readWord s.pc.toNat) s.advancePc := by
  cases hi : decodeWord (s.prog.readWord s.pc.toNat) with
  | ok i => rw [step_of_decode_ok hrun hpc hi, executeWord_of_ok hi]
  | error e => rw [step_of_decode_error hrun hpc hi, executeWord_of_error hi]

/-- Settles O52: a booted machine runs at `pc` 0, which is below PROG_LEN, and word 0 is the first. -/
theorem bootedMachineFetchesWordZero : Obligations.BootedMachineFetchesWordZero := by
  intro s t w ws h
  obtain ⟨u, hload, rfl⟩ := State.boot_eq_some_iff.mp h
  have hpc : u.applyReset.pc.toNat < u.applyReset.progLen.toNat := by
    rw [State.applyReset_progLen, State.progLen_of_loadProgram hload]
    exact Nat.succ_pos _
  have hword : u.applyReset.prog.readWord 0 = w := State.readWord_of_loadProgram hload (Nat.succ_pos _)
  refine ⟨rfl, rfl, ?_⟩
  rw [step_executes_fetched rfl hpc, State.applyReset_pc, BitVec.toNat_ofNat, Nat.zero_mod, hword]
  rfl

/-! ### The invariant at reset -/

/-- After reset the invariant asks only for a canonical store within PROG_LEN. -/
theorem State.inv_applyReset {s : State} (hwf : s.prog.wf = true)
    (hwithin : s.prog.within s.progLen.toNat = true) : s.applyReset.Inv :=
  s.applyReset.inv_iff.mpr ⟨⟨hwf, hwithin⟩, .of_running rfl rfl ⟨rfl, rfl, rfl⟩, nofun⟩

/-- Settles O53: loading establishes what `inv_applyReset` asks for. -/
theorem bootEstablishesTheInvariant : Obligations.BootEstablishesTheInvariant := by
  intro s t ws h
  obtain ⟨u, hload, rfl⟩ := State.boot_eq_some_iff.mp h
  exact ⟨State.inv_applyReset (State.loadProgram_wf s u ws hload) (State.within_of_loadProgram hload), rfl,
    rfl, ⟨rfl, rfl, rfl⟩, rfl⟩

/-- Settles O54: the empty store is canonical and holds no word. -/
theorem resetSatisfiesTheInvariant : Obligations.ResetSatisfiesTheInvariant :=
  State.inv_applyReset (s := State.reset) State.reset_prog_wf rfl

end Sys2Proof.Machine
end

section
/-! The event trace is an output only (10_state.md R30): every operation commutes with putting another trace
into the state, so a run adds the same events to any trace. -/

namespace Sys2Proof.Machine

/-- The state with another trace. -/
def State.withEvents (s : State) (ev : List Event) : State := { s with events := ev }

/-- From `s` with any trace, `f` answers one state with one list of events appended to that trace. -/
def AddsToTrace (f : State → Host.Outcome State Fault Refusal) (s : State) : Prop :=
  ∃ (t : State) (d : List Event), ∀ ev, f (s.withEvents ev) = .next (t.withEvents (ev ++ d))

section
variable {f : State → Host.Outcome State Fault Refusal} {s : State}

theorem AddsToTrace.of_no_event (t : State) (h : ∀ ev, f (s.withEvents ev) = .next (t.withEvents ev)) :
    AddsToTrace f s :=
  ⟨t, [], fun ev => by rw [h, List.append_nil]⟩

theorem AddsToTrace.of_emit (e : Event) (h : ∀ ev, f (s.withEvents ev) = .next ((s.withEvents ev).emit e)) :
    AddsToTrace f s :=
  ⟨s, [e], h⟩

end

/-! ### The operations on the state -/

section
variable (s : State) (ev : List Event)

theorem State.readField_withEvents {w : Nat} (f : BitVec w) :
    (s.withEvents ev).readField f = s.readField f := rfl

theorem State.src2_withEvents (b : Src2) : (s.withEvents ev).src2 b = s.src2 b := by
  cases b <;> rfl

theorem State.alu_withEvents (f : Word → Word → Except Trap Word) (ra : BitVec 5) (b : Src2)
    (rd : BitVec 5) :
    (s.withEvents ev).alu f ra b rd = (s.alu f ra b rd).map (State.withEvents · ev) := by
  simp only [alu, readField_withEvents, src2_withEvents]
  cases s.readField ra with
  | error e => rfl
  | ok va =>
    cases s.src2 b with
    | error e => rfl
    | ok vb =>
      cases regIdx rd with
      | error e => rfl
      | ok j => cases hf : f va vb <;> simp only [hf] <;> rfl

theorem State.branch_withEvents (p : Word → Bool) (ra : BitVec 5) (addr : BitVec 22) :
    (s.withEvents ev).branch p ra addr = (s.branch p ra addr).map (State.withEvents · ev) := by
  simp only [branch, readField_withEvents]
  cases s.readField ra with
  | error e => rfl
  | ok v => cases hp : p v <;> simp only [hp] <;> rfl

theorem State.jump_withEvents (tg : Target) (rd : BitVec 5) :
    (s.withEvents ev).jump tg rd = (s.jump tg rd).map (State.withEvents · ev) := by
  unfold jump
  cases regIdx rd with
  | error e => rfl
  | ok j =>
    cases tg with
    | direct a => rfl
    | reg f =>
      simp only
      cases regIdx f <;> rfl

end

/-- An instruction whose result commutes with the trace adds nothing to it. -/
theorem State.complete_addsToTrace {s : State} {op : State → Except Trap State}
    (h : ∀ ev, op (s.withEvents ev) = (op s).map (State.withEvents · ev)) :
    AddsToTrace (fun u => u.complete (op u)) s := by
  cases hs : op s with
  | ok t => exact .of_no_event t fun ev => by rw [h, hs]; rfl
  | error e => exact .of_no_event (s.raise e s.fetchAddr) fun ev => by rw [h, hs]; rfl

/-! ### Instructions, steps and runs -/

theorem exec_addsToTrace (i : Instr) (s : State) : AddsToTrace (exec i) s := by
  cases i with
  | stop => exact .of_no_event (s.halt .stop) fun _ => rfl
  | load ra b rd => exact .of_emit (.diag .load s.fetchAddr ra b.imm b.op2 rd) fun _ => rfl
  | store ra b rd => exact .of_emit (.diag .store s.fetchAddr ra b.imm b.op2 rd) fun _ => rfl
  | scall num => exact .of_emit (.syscall s.fetchAddr num) fun _ => rfl
  | jmp tg rd => exact State.complete_addsToTrace fun ev => s.jump_withEvents ev tg rd
  | braz ra addr => exact State.complete_addsToTrace fun ev => s.branch_withEvents ev _ ra addr
  | branz ra addr => exact State.complete_addsToTrace fun ev => s.branch_withEvents ev _ ra addr
  | _ => exact State.complete_addsToTrace fun ev => s.alu_withEvents ev _ _ _ _

theorem step_addsToTrace (s : State) : AddsToTrace step s := by
  by_cases hrun : s.run = .running
  · by_cases hpc : s.pc.toNat < s.progLen.toNat
    · cases hi : decodeWord (s.prog.readWord s.pc.toNat) with
      | ok i =>
        obtain ⟨t, d, h⟩ := exec_addsToTrace i s.advancePc
        exact ⟨t, d, fun ev => (step_of_decode_ok (s := s.withEvents ev) hrun hpc hi).trans (h ev)⟩
      | error e =>
        exact .of_no_event (s.advancePc.halt .unknownOpcode) fun ev =>
          step_of_decode_error (s := s.withEvents ev) hrun hpc hi
    · exact .of_no_event s.raisePc fun ev =>
        step_out_of_range (s.withEvents ev) hrun (Nat.le_of_not_lt hpc)
  · exact .of_no_event s fun ev => step_stopped (s.withEvents ev) hrun

/-- By induction on the number of steps: the events of a run are those of its first step and then those of
the rest. -/
theorem runSteps_addsToTrace (k : Nat) (s : State) : AddsToTrace (runSteps k) s := by
  induction k generalizing s with
  | zero => exact .of_no_event s fun _ => rfl
  | succ k ih =>
    obtain ⟨t, d, hstep⟩ := step_addsToTrace s
    obtain ⟨u, d', hruns⟩ := ih t
    exact ⟨u, d ++ d', fun ev => by rw [runSteps_succ k _ _ (hstep ev), hruns, List.append_assoc]⟩

/-- Settles O57: the statement is `AddsToTrace` of the run, written out. -/
theorem traceNeverInfluencesTheRun : Obligations.TraceNeverInfluencesTheRun := runSteps_addsToTrace

end Sys2Proof.Machine
end

section
/-! The assembly front end (30_encoding.md R101, R104): one word for each instruction line, and the index a
label is bound to. -/

namespace Sys2Proof.Assembler

/-- The instruction lines of a source. -/
def instrLines (lines : List Text) : List Text := lines.filter (fun l => labelOf l = none)

theorem instrLines_cons_instr {l : Text} (h : labelOf l = none) (lines : List Text) :
    instrLines (l :: lines) = l :: instrLines lines :=
  List.filter_cons_of_pos (decide_eq_true h)

theorem instrLines_cons_label {l name : Text} (h : labelOf l = some name) (lines : List Text) :
    instrLines (l :: lines) = instrLines lines :=
  List.filter_cons_of_neg (by rw [h]; simp)

/-! ### The second pass -/

theorem emitWords_cons_label {l name : Text} (h : labelOf l = some name) (ls : Labels)
    (lines : List Text) : emitWords ls (l :: lines) = emitWords ls lines := by
  simp only [emitWords, h]

/-- An instruction line that assembles gives one word, before those of the lines after it. -/
theorem emitWords_cons_instr {l : Text} (h : labelOf l = none) {ls : Labels} {lines : List Text}
    {ws : List Word} (hemit : emitWords ls (l :: lines) = .ok ws) :
    ∃ w ws', ws = w :: ws' ∧ emitWords ls lines = .ok ws' := by
  simp only [emitWords, h] at hemit
  split at hemit
  · cases hemit
  · split at hemit
    · cases hemit
    · next w _ _ ws' hrest => exact ⟨w, ws', (Except.ok.inj hemit).symm, hrest⟩

/-- The second pass gives one word for each instruction line (30_encoding.md R104). -/
theorem length_emitWords {ls : Labels} {lines : List Text} {ws : List Word}
    (h : emitWords ls lines = .ok ws) : ws.length = (instrLines lines).length := by
  induction lines generalizing ws with
  | nil =>
    cases h
    rfl
  | cons l lines ih =>
    cases hlabel : labelOf l with
    | none =>
      obtain ⟨w, ws', rfl, hrest⟩ := emitWords_cons_instr hlabel h
      rw [instrLines_cons_instr hlabel, List.length_cons, List.length_cons, ih hrest]
    | some name =>
      rw [emitWords_cons_label hlabel] at h
      rw [instrLines_cons_label hlabel, ih h]

/-- Settles O12: the second pass runs over the lines that the first pass accepted. -/
theorem assemblyYieldsOneWordPerInstructionLine : Obligations.AssemblyYieldsOneWordPerInstructionLine := by
  intro src ws h
  unfold assemble at h
  split at h
  · cases h
  · exact length_emitWords h

/-! ### The first pass -/

theorem collectLabels_cons_instr {l : Text} (h : labelOf l = none) (ls : Labels) (n : Nat)
    (lines : List Text) : collectLabels ls n (l :: lines) = collectLabels ls (n + 1) lines := by
  simp only [collectLabels, h]

/-- A label line that is accepted has a new name, which it binds to the counter. -/
theorem collectLabels_cons_label {l name : Text} (h : labelOf l = some name) {ls ls' : Labels} {n : Nat}
    {lines : List Text} (hok : collectLabels ls n (l :: lines) = .ok ls') :
    lookupLabel ls name = none ∧ collectLabels (ls ++ [(name, n)]) n lines = .ok ls' := by
  simp only [collectLabels, h] at hok
  split at hok
  · cases hok
  · next hnew => exact ⟨hnew, hok⟩

/-- A lookup in a longer table finds the first binding. -/
theorem lookupLabel_append (ls ls' : Labels) (name : Text) :
    lookupLabel (ls ++ ls') name = (lookupLabel ls name).or (lookupLabel ls' name) := by
  induction ls with
  | nil => rfl
  | cons b ls ih =>
    obtain ⟨m, a⟩ := b
    simp only [List.cons_append, lookupLabel]
    split_ifs
    · rfl
    · exact ih

/-- The first pass never rebinds a name. -/
theorem lookupLabel_collectLabels {ls ls' : Labels} {n a : Nat} {lines : List Text} {name : Text}
    (hok : collectLabels ls n lines = .ok ls') (h : lookupLabel ls name = some a) :
    lookupLabel ls' name = some a := by
  induction lines generalizing ls n with
  | nil =>
    cases hok
    exact h
  | cons l lines ih =>
    cases hlabel : labelOf l with
    | none => exact ih (collectLabels_cons_instr hlabel ls n lines ▸ hok) h
    | some m =>
      obtain ⟨-, hrest⟩ := collectLabels_cons_label hlabel hok
      exact ih hrest (by rw [lookupLabel_append, h, Option.some_or])

/-- A label line is bound to the counter plus the instruction lines before it (30_encoding.md R101). -/
theorem lookupLabel_of_collectLabels {pre post : List Text} {line name : Text} {ls ls' : Labels} {n : Nat}
    (hline : labelOf line = some name) (hok : collectLabels ls n (pre ++ line :: post) = .ok ls') :
    lookupLabel ls' name = some (n + (instrLines pre).length) := by
  induction pre generalizing ls n with
  | nil =>
    obtain ⟨hnew, hrest⟩ := collectLabels_cons_label hline hok
    refine lookupLabel_collectLabels hrest ?_
    rw [lookupLabel_append, hnew, Option.none_or]
    exact if_pos rfl
  | cons l pre ih =>
    cases hlabel : labelOf l with
    | none =>
      rw [List.cons_append, collectLabels_cons_instr hlabel] at hok
      rw [ih hok, instrLines_cons_instr hlabel, List.length_cons, Nat.add_assoc, Nat.add_comm 1]
    | some m =>
      obtain ⟨-, hrest⟩ := collectLabels_cons_label hlabel hok
      rw [ih hrest, instrLines_cons_label hlabel]

/-- Settles O13: the counter begins at 0. -/
theorem labelsBindTheNextInstructionIndex : Obligations.LabelsBindTheNextInstructionIndex := by
  intro lines pre post line name ls hlines hline hok
  rw [hlines] at hok
  exact (lookupLabel_of_collectLabels hline hok).trans (by rw [Nat.zero_add]; rfl)

end Sys2Proof.Assembler
end
